-- ==== Sys2Proof/Word.lean ====
section
/-! DEFINITION. The machine's words: the 32-bit register value and the byte (spec 00_scope.md R7, R10). -/

namespace Sys2Proof

/-- One byte, a bus lane or an element of a byte string (00_scope.md R10). -/
abbrev Byte := BitVec 8

/-- One register value or command word (00_scope.md R7: register data width 32 bits). -/
abbrev Word := BitVec 32

end Sys2Proof
end

