-- ==== Sys2Proof/Syntax.lean ====
section
/-! DEFINITION. The commands: one constructor per row of spec/opcode_table.json (30_encoding.md R90 to R94). -/

namespace Sys2Proof

/-- A command, as the 32-bit word written to CMD selects it. A command names no register and no immediate (R91), so only
the row ILLEGAL_RSV, which stands for many words, carries data. -/
inductive Instr where
  /-- 0x0: completes and does nothing (44_totp_and_control.md R201). -/
  | nop
  /-- 0x1: COUNTER from TIME, STEP, OFFSET (41_counter_encoder.md R133). -/
  | encode
  /-- 0x2: DIGEST from the key and COUNTER (42_hmac_sha1.md R153). -/
  | hmac
  /-- 0x3: the result registers from DIGEST (43_truncation.md R186). -/
  | trunc
  /-- 0x4: HMAC then truncation (43_truncation.md R187). -/
  | hotp
  /-- 0x5: counter, HMAC and truncation (44_totp_and_control.md R200). -/
  | totp
  /-- 0xF: erases key, operands and results (44_totp_and_control.md R202). -/
  | clear
  /-- 0x6, reserved (44_totp_and_control.md R203), as are the eight constructors after it. -/
  | reserved6
  | reserved7
  | reserved8
  | reserved9
  | reservedA
  | reservedB
  | reservedC
  | reservedD
  | reservedE
  /-- Any word whose bits [31:4] (`rsv`) are not 0, with any OP (44_totp_and_control.md R203). -/
  | illegalRsv (rsv : BitVec 28) (op : BitVec 4)
deriving DecidableEq, Repr

end Sys2Proof
end

