-- ==== Sys2Proof/WellFormed.lean ====
section
/-! DEFINITION. Which terms of Instr stand for a command word: ILLEGAL_RSV applies only where bits [31:4] are not 0
(44_totp_and_control.md R203); with them 0 the word belongs to another row. -/

namespace Sys2Proof

/-- The check, as a Bool. -/
def Instr.check : Instr → Bool
  | .illegalRsv rsv _ => rsv != 0
  | .nop | .encode | .hmac | .trunc | .hotp | .totp | .clear => true
  | .reserved6 | .reserved7 | .reserved8 | .reserved9 | .reservedA => true
  | .reservedB | .reservedC | .reservedD | .reservedE => true

/-- The term stands for the words of exactly one row of the opcode table. -/
abbrev Instr.WellFormed (i : Instr) : Prop := i.check = true

end Sys2Proof
end

