-- ==== Sys2Proof/Decode.lean ====
section
/-! DEFINITION. Command words: decoding, the verdict `legal`, and the encoder (30_encoding.md R90 to R95). Every 32-bit
word is a command (R111: "Acceptance happens for every w, legal or not"), so only a byte string of the wrong length is
rejected. -/

namespace Sys2Proof

/-- The fields of a command word (R90): OP is bits [3:0]. -/
def wordOp (w : Word) : BitVec 4 := w.extractLsb' 0 4

/-- The fields of a command word (R90): RSV is bits [31:4]. -/
def wordRsv (w : Word) : BitVec 28 := w.extractLsb' 4 28

/-- The decode verdict of R93: `legal(w) = (w[31:4] = 0) and (w[3:0] in 0x0 to 0x5 or 0xF)`. -/
def legal (w : Word) : Bool :=
  wordRsv w == 0 && (decide ((wordOp w).toNat ≤ 5) || wordOp w == 0xF#4)

/-- The row of the opcode map R92 that an OP field selects when RSV is 0. -/
def decodeOp (op : BitVec 4) : Instr :=
  match op.toNat with
  | 0x0 => .nop
  | 0x1 => .encode
  | 0x2 => .hmac
  | 0x3 => .trunc
  | 0x4 => .hotp
  | 0x5 => .totp
  | 0x6 => .reserved6
  | 0x7 => .reserved7
  | 0x8 => .reserved8
  | 0x9 => .reserved9
  | 0xA => .reservedA
  | 0xB => .reservedB
  | 0xC => .reservedC
  | 0xD => .reservedD
  | 0xE => .reservedE
  | _ => .clear

/-- Decoding a command word (R93, R94; opcode_table.json: ILLEGAL_RSV "applies only when no row above matches"). -/
def decode (w : Word) : Instr :=
  if wordRsv w = 0 then decodeOp (wordOp w) else .illegalRsv (wordRsv w) (wordOp w)

/-- Why a byte string is no command word. -/
inductive DecodeError where
  /-- Fewer than the four bytes of a command word (R95: "Every command is one 32-bit word"). -/
  | truncated
deriving DecidableEq, Repr

/-- A word from its four bus lanes, lane 0 (bits [7:0]) first (20_memory.md R72; log entry 23). -/
def wordOfLanes (l0 l1 l2 l3 : Byte) : Word := l3 ++ l2 ++ l1 ++ l0

/-- The four bus lanes of a word, lane i being bits [8i+7:8i], lane 0 first (20_memory.md R72). -/
def lanesOfWord (w : Word) : List Byte :=
  [w.extractLsb' 0 8, w.extractLsb' 8 8, w.extractLsb' 16 8, w.extractLsb' 24 8]

/-- Decoding from any byte string: the command of the first four lanes and the rest. -/
def decodeBytes : List Byte → Except DecodeError (Instr × List Byte)
  | l0 :: l1 :: l2 :: l3 :: rest => .ok (decode (wordOfLanes l0 l1 l2 l3), rest)
  | _ => .error .truncated

/-- The OP field of a command (R92). -/
def opField : Instr → BitVec 4
  | .nop => 0x0
  | .encode => 0x1
  | .hmac => 0x2
  | .trunc => 0x3
  | .hotp => 0x4
  | .totp => 0x5
  | .reserved6 => 0x6
  | .reserved7 => 0x7
  | .reserved8 => 0x8
  | .reserved9 => 0x9
  | .reservedA => 0xA
  | .reservedB => 0xB
  | .reservedC => 0xC
  | .reservedD => 0xD
  | .reservedE => 0xE
  | .clear => 0xF
  | .illegalRsv _ op => op

/-- The RSV field of a command: 0 but for ILLEGAL_RSV (R90, R203). -/
def rsvField : Instr → BitVec 28
  | .illegalRsv rsv _ => rsv
  | .nop | .encode | .hmac | .trunc | .hotp | .totp | .clear => 0
  | .reserved6 | .reserved7 | .reserved8 | .reserved9 | .reservedA => 0
  | .reservedB | .reservedC | .reservedD | .reservedE => 0

/-- The commands that R92 gives a computation; every other one completes with ILLEGAL_CMD. -/
def isLegalCommand : Instr → Bool
  | .nop | .encode | .hmac | .trunc | .hotp | .totp | .clear => true
  | .reserved6 | .reserved7 | .reserved8 | .reserved9 | .reservedA => false
  | .reservedB | .reservedC | .reservedD | .reservedE => false
  | .illegalRsv _ _ => false

/-- The command word of a command: RSV above OP (the pattern string of R90). -/
def encode (i : Instr) : Word := rsvField i ++ opField i

/-- The command word as its four bus lanes. -/
def encodeBytes (i : Instr) : List Byte := lanesOfWord (encode i)

/-- The command a busy engine runs. Acceptance keeps only `op` and `ok = legal(w)` of the word w (10_state.md R22); a word
with RSV ≠ 0 and OP of a legal command is therefore named here by one such word, RSV = 1, and every such word has the
same meaning (R203; log entry 1). With `ok` and a reserved `op`, which no run reaches, it is that reserved command (log
entry 18). -/
def commandOf (op : BitVec 4) (ok : Bool) : Instr :=
  if ok || !isLegalCommand (decodeOp op) then decodeOp op else .illegalRsv 1 op

/-- The low `nbits` bits of a number, as a command word: the bits above `nbits` are 0. -/
def tableWord (nbits w : Nat) : Word := BitVec.ofNat 32 (w % 2 ^ nbits)

/-- The host's fixed name: what the decoder reads from the instruction whose bits are `w`, given as its bus lanes. A
command is one 32-bit word (R95), so nothing longer is one. -/
def decodeTableWord (nbits w : Nat) : Option Instr :=
  if nbits ≤ 32 then
    match decodeBytes (lanesOfWord (tableWord nbits w)) with
    | .ok (i, []) => some i
    | _ => none
  else none

end Sys2Proof
end

