-- ==== Sys2Proof/Config.lean ====
section
/-! DEFINITION. What the platform fixes (BASE) and the free values: constants without a body, of which no proof can know
anything. -/

namespace Sys2Proof

/-- Which 256-byte window of the bus the block stands in: the open parameter BASE of 00_scope.md R8 is 256 times this
(20_memory.md R71: "a multiple of 256"). Log entry 12. -/
opaque Config.baseIndex : Nat

/-- The read data of a response whose data the spec does not state: a misaligned read outside 0x94 to 0xFC (log entry 6)
and a read in flight at reset (93_implementation_defined.md A9, log entry 11). The argument is `State.freeCount`. -/
opaque Config.freeReadData : Nat → Word

/-- The OKAY or ERROR of a response to a transaction in flight when reset is asserted (93_implementation_defined.md A9:
any value; log entry 11). The argument is `State.freeCount`. -/
opaque Config.freeResponseErr : Nat → Bool

/-- The bus address of register offset 0x00 (20_memory.md R71). -/
def Config.base : Nat := 256 * Config.baseIndex

end Sys2Proof
end

