-- ==== Sys2Proof/Machine/State.lean ====
section
/-! DEFINITION. The state of the block (10_state.md R22 to R49), its inputs (R21) and its reset value (R49). -/

namespace Sys2Proof.Machine

/-- The engine state ENG (10_state.md R22): IDLE, or BUSY with the OP field of the accepted word and its decode verdict. -/
inductive Engine where
  | idle
  | busy (op : BitVec 4) (ok : Bool)
deriving DecidableEq, Repr

/-- The errors a command can complete with (60_exceptions.md R221). -/
inductive CmdError where
  | illegalCmd
  | invalidCounter
  | invalidKey
deriving DecidableEq, Repr

/-- The registers of the window (10_state.md R23). -/
inductive Reg where
  | id | version | ctrl | cmd | status | keyLen | step | offset
  | timeLo | timeHi | counterLo | counterHi | trunc | code | codeBcd | codeInfo
  | key (j : Fin 16)
  | digest (j : Fin 5)
deriving DecidableEq, Repr

/-- One transaction at the port, `bus_req` (10_state.md R21). A read ignores `wdata` and `wstrb`. -/
structure BusReq where
  write : Bool
  off   : BitVec 8
  wdata : Word
  wstrb : BitVec 4
deriving DecidableEq, Repr

/-- Its response, `bus_resp` (10_state.md R21): `err` is the ERROR response, and the data is there for a read only
("rdata (32 bits, valid for a read"). -/
structure BusResp where
  rdata : Option Word
  err   : Bool
deriving DecidableEq, Repr

/-- One input of the block, or the engine's turn. A list of them is the total order of 20_memory.md R80; a transaction
and a completion in one clock cycle stand in it transaction first (40_command_model.md R119). Log entry 2. -/
inductive Turn where
  /-- A transaction at the port, the address already decoded. -/
  | host (r : BusReq)
  /-- A transaction at a bus address, which may select the block or not (20_memory.md R71). -/
  | bus (addr : Nat) (write : Bool) (wdata : Word) (wstrb : BitVec 4)
  /-- The host's POLL (30_encoding.md R97): read until the masked value is `val`. Log entry 21. -/
  | poll (off : BitVec 8) (mask val : Word)
  /-- The engine's turn: it completes the command in progress, if there is one (40_command_model.md R116, R118). -/
  | engine
  /-- Reset (70_reset_and_hazards.md R250), with the transaction that is in flight when it is asserted, if any. -/
  | reset (inFlight : Option BusReq)
deriving DecidableEq, Repr

/-- The whole state. The last three fields are the model's own. -/
structure State where
  eng       : Engine
  ie        : Bool
  done      : Bool
  err       : Bool
  wbusy     : Bool
  errcode   : BitVec 4
  lastop    : BitVec 4
  keyLen    : BitVec 7
  stepReg   : Word
  offsetReg : Word
  timeLo    : Word
  timeHi    : Word
  counterLo : Word
  counterHi : Word
  key       : Vector Word 16
  digest    : Vector Word 5
  trunc     : BitVec 31
  code      : BitVec 20
  codeBcd   : BitVec 24
  legacyLen : BitVec 3
  tofs      : BitVec 4
  valid     : Bool
  turns     : List Turn
  resp      : Option BusResp
  freeCount : Nat
deriving DecidableEq, Repr

/-- Reasons to stop with a fault: none. Errors are completion outcomes (60_exceptions.md R220), a bus error is an ERROR
response after which the block goes on (R227; log entry 5), and 93_implementation_defined.md says that the block has no
undefined, unpredictable or stuck behaviour. -/
inductive Fault where
deriving DecidableEq, Repr

/-- Reasons to refuse. No meaning of this model refuses. -/
inductive Refusal where
  /-- Raised by an arm of `exec` whose instruction has no meaning yet; safe, the model stops. No arm does. -/
  | notModelled (mnemonic : String)
deriving DecidableEq, Repr

/-- The state right after reset (10_state.md R49): ENG is IDLE and every register is 0. Nothing is scheduled and nothing
has been answered (log entries 2, 9, 10). -/
def State.reset : State where
  eng := .idle
  ie := false
  done := false
  err := false
  wbusy := false
  errcode := 0
  lastop := 0
  keyLen := 0
  stepReg := 0
  offsetReg := 0
  timeLo := 0
  timeHi := 0
  counterLo := 0
  counterHi := 0
  key := #v[0, 0, 0, 0, 0, 0, 0, 0, 0, 0, 0, 0, 0, 0, 0, 0]
  digest := #v[0, 0, 0, 0, 0]
  trunc := 0
  code := 0
  codeBcd := 0
  legacyLen := 0
  tofs := 0
  valid := false
  turns := []
  resp := none
  freeCount := 0

end Sys2Proof.Machine
end

