-- ==== Sys2Proof/Machine/Operands.lean ====
section
/-! DEFINITION. Byte order, the register map, and the operands a command reads (00_scope.md R10, R11; 10_state.md R23 to
R41; 41_counter_encoder.md R130 to R132; 42_hmac_sha1.md R148). -/

namespace Sys2Proof.Machine

/-! ### Byte strings (00_scope.md R10) -/

/-- `be32`: the four bytes of a word, most significant first. -/
def be32 (w : Word) : List Byte :=
  [w.extractLsb' 24 8, w.extractLsb' 16 8, w.extractLsb' 8 8, w.extractLsb' 0 8]

/-- The inverse of `be32`: the first byte goes to bits [31:24] (43_truncation.md R187). -/
def pack32 (b0 b1 b2 b3 : Byte) : Word := b0 ++ b1 ++ b2 ++ b3

/-- `be64`: the eight bytes of a 64-bit value, most significant first. It is also the big-endian multiplexer of
41_counter_encoder.md R132. -/
def be64 (v : BitVec 64) : List Byte := be32 (v.extractLsb' 32 32) ++ be32 (v.extractLsb' 0 32)

/-- Byte k of a byte string, counting from 0 (00_scope.md R10); 0 past its end, where no rule reads. -/
def byteAt (d : List Byte) (k : Nat) : Byte := d.getD k 0

/-- A byte string as big-endian words (42_hmac_sha1.md R145); what is left of a last word is dropped. -/
def wordsOf : List Byte → List Word
  | b0 :: b1 :: b2 :: b3 :: rest => pack32 b0 b1 b2 b3 :: wordsOf rest
  | _ => []

/-! ### The register map (10_state.md R23) -/

/-- The constant of ID, the ASCII bytes "TOTP" (10_state.md R24). -/
def idValue : Word := 0x544F5450

/-- The constant of VERSION, revision 1.0 (10_state.md R25). -/
def versionValue : Word := 0x00010000

/-- The byte offset of a register. -/
def offsetOf : Reg → BitVec 8
  | .id => 0x00
  | .version => 0x04
  | .ctrl => 0x08
  | .cmd => 0x0C
  | .status => 0x10
  | .keyLen => 0x14
  | .step => 0x18
  | .offset => 0x1C
  | .timeLo => 0x20
  | .timeHi => 0x24
  | .counterLo => 0x28
  | .counterHi => 0x2C
  | .trunc => 0x30
  | .code => 0x34
  | .codeBcd => 0x38
  | .codeInfo => 0x3C
  | .key j => BitVec.ofNat 8 (0x40 + 4 * j.val)
  | .digest j => BitVec.ofNat 8 (0x80 + 4 * j.val)

/-- The register in word slot n of the window, that is at byte offset 4n; none in the reserved slots from 0x94 on. -/
def regOfSlot (n : Nat) : Option Reg :=
  match n with
  | 0 => some .id
  | 1 => some .version
  | 2 => some .ctrl
  | 3 => some .cmd
  | 4 => some .status
  | 5 => some .keyLen
  | 6 => some .step
  | 7 => some .offset
  | 8 => some .timeLo
  | 9 => some .timeHi
  | 10 => some .counterLo
  | 11 => some .counterHi
  | 12 => some .trunc
  | 13 => some .code
  | 14 => some .codeBcd
  | 15 => some .codeInfo
  | n =>
    if n < 32 then some (.key (Fin.ofNat 16 (n - 16)))
    else if n < 37 then some (.digest (Fin.ofNat 5 (n - 32)))
    else none

/-- A misaligned offset (20_memory.md R74): off[1:0] ≠ 0b00. -/
def misaligned (off : BitVec 8) : Bool := off.extractLsb' 0 2 != 0

/-- An offset in 0x94 to 0xFC (20_memory.md R75; the range is read as byte offsets, log entry 7). -/
def reservedOffset (off : BitVec 8) : Bool := decide (0x94 ≤ off.toNat) && decide (off.toNat ≤ 0xFC)

/-- The register at an offset: none where the access is misaligned or reserved (R74, R75). -/
def regAt (off : BitVec 8) : Option Reg :=
  if misaligned off then none else regOfSlot (off.toNat / 4)

/-- The registers whose host writes are dropped while the engine is busy (40_command_model.md R114). -/
def locked : Reg → Bool
  | .cmd | .keyLen | .step | .offset | .timeLo | .timeHi | .counterLo | .counterHi => true
  | .key _ | .digest _ => true
  | .id | .version | .ctrl | .status | .trunc | .code | .codeBcd | .codeInfo => false

/-- Address decoding (20_memory.md R71): the byte offset, where bus address `a` selects the window at `base`. -/
def selectOffset (base a : Nat) : Option (BitVec 8) :=
  if base ≤ a ∧ a < base + 256 then some (BitVec.ofNat 8 (a - base)) else none

/-! ### Operands of the commands -/

/-- The 64-bit time T (10_state.md R38). -/
def timeOf (s : State) : Nat := s.timeHi.toNat * 2 ^ 32 + s.timeLo.toNat

/-- The effective step S (41_counter_encoder.md R130): STEP = 0 selects 30. -/
def effectiveStep (s : State) : Nat := if s.stepReg = 0 then 30 else s.stepReg.toNat

/-- The signed offset `sext_32(x[OFFSET])` (10_state.md R37). -/
def offsetOfCounter (s : State) : Int := s.offsetReg.toInt

/-- The 64-bit counter C (10_state.md R39). -/
def counterOf (s : State) : BitVec 64 := s.counterHi ++ s.counterLo

/-- The key K (10_state.md R40, 42_hmac_sha1.md R148): the first LEN bytes of the key buffer. -/
def keyBytes (s : State) : List Byte := (s.key.toList.flatMap be32).take s.keyLen.toNat

/-- The digest d as 20 bytes (10_state.md R41). -/
def digestBytes (s : State) : List Byte := s.digest.toList.flatMap be32

end Sys2Proof.Machine
end

