-- ==== Sys2Proof/Machine/Flags.lean ====
section
/-! DEFINITION. STATUS, its write-1-to-clear bits, the interrupt, and what acceptance and completion do to the flags
(10_state.md R28 to R34; 40_command_model.md R111, R116; 60_exceptions.md R221, R230). -/

namespace Sys2Proof.Machine

/-- STATUS.BUSY (10_state.md R22, R28): 1 exactly when ENG is BUSY. -/
def busy (s : State) : Bool :=
  match s.eng with
  | .idle => false
  | .busy _ _ => true

/-- The STATUS word (10_state.md, layout of STATUS): LASTOP [15:12], ERRCODE [11:8], WBUSY, ERR, DONE, BUSY. -/
def statusWord (s : State) : Word :=
  0#16 ++ s.lastop ++ s.errcode ++ 0#4 ++ BitVec.ofBool s.wbusy ++ BitVec.ofBool s.err ++ BitVec.ofBool s.done
    ++ BitVec.ofBool (busy s)

/-- The CODE_INFO word (10_state.md R45): VALID bit 8, TOFS [7:4], LEGACY_LEN [2:0]. -/
def codeInfoWord (s : State) : Word :=
  0#23 ++ BitVec.ofBool s.valid ++ s.tofs ++ 0#1 ++ s.legacyLen

/-- The interrupt output (10_state.md R48, 60_exceptions.md R230): a level, `CTRL.IE & STATUS.DONE`. -/
def irq (s : State) : Bool := s.ie && s.done

/-- A host write of STATUS (10_state.md R34): bits 1, 2 and 3 clear DONE, ERR with ERRCODE, and WBUSY. -/
def clearStatus (v : Word) (s : State) : State :=
  { s with
    done := s.done && !v.getLsbD 1
    err := s.err && !v.getLsbD 2
    errcode := if v.getLsbD 2 then 0 else s.errcode
    wbusy := s.wbusy && !v.getLsbD 3 }

/-- The number of an error in STATUS.ERRCODE (60_exceptions.md R221). -/
def CmdError.number : CmdError → BitVec 4
  | .illegalCmd => 1
  | .invalidCounter => 2
  | .invalidKey => 3

/-- The flags of an error completion, before BUSY and DONE (40_command_model.md R116). -/
def reportError (e : CmdError) (s : State) : State := { s with errcode := e.number, err := true }

/-- The end of every completion (40_command_model.md R116): DONE is set and the engine is IDLE, so BUSY is 0. -/
def finish (s : State) : State := { s with done := true, eng := .idle }

end Sys2Proof.Machine
end

