-- ==== Sys2Proof/Machine/Ops.lean ====
section
/-! DEFINITION. The shared operations: acceptance and completion of a command, register reads and writes, a bus
transaction, and reset (20_memory.md R71 to R76; 40_command_model.md R111 to R117; 70_reset_and_hazards.md R250). -/

namespace Sys2Proof.Machine

/-! ### A command's life -/

/-- Acceptance of the command word w (40_command_model.md R111). -/
def accept (w : Word) (s : State) : State :=
  { s with
    eng := .busy (wordOp w) (legal w)
    lastop := wordOp w
    done := false
    err := false
    errcode := 0 }

/-- Completion (40_command_model.md R116), the ONE way a command ends: with the registers that EXEC_op gives, or with an
error that writes STATUS only (R117). The block takes no exception: an error is this outcome (60_exceptions.md R220). -/
def complete (r : Except CmdError State) (s : State) : Host.Outcome State Fault Refusal :=
  match r with
  | .ok upd => .next (finish upd)
  | .error e => .next (finish (reportError e s))

/-! ### Register reads and writes -/

/-- The value a host read returns (10_state.md R23 to R45). CMD and KEY0 to KEY15 read 0 (R27, R40); reserved bits read 0
(R47). -/
def readReg (r : Reg) (s : State) : Word :=
  match r with
  | .id => idValue
  | .version => versionValue
  | .ctrl => (BitVec.ofBool s.ie).setWidth 32
  | .cmd => 0
  | .status => statusWord s
  | .keyLen => s.keyLen.setWidth 32
  | .step => s.stepReg
  | .offset => s.offsetReg
  | .timeLo => s.timeLo
  | .timeHi => s.timeHi
  | .counterLo => s.counterLo
  | .counterHi => s.counterHi
  | .trunc => s.trunc.setWidth 32
  | .code => s.code.setWidth 32
  | .codeBcd => s.codeBcd.setWidth 32
  | .codeInfo => codeInfoWord s
  | .key _ => 0
  | .digest j => s.digest[j]

/-- The effect of a host write that is not dropped (10_state.md R26, R34 to R41; 20_memory.md R76: a write to a read-only
register is ignored). A write to CMD is the acceptance of a command. -/
def storeReg (r : Reg) (v : Word) (s : State) : State :=
  match r with
  | .id => s
  | .version => s
  | .ctrl => { s with ie := v.getLsbD 0 }
  | .cmd => accept v s
  | .status => clearStatus v s
  | .keyLen => { s with keyLen := v.extractLsb' 0 7 }
  | .step => { s with stepReg := v }
  | .offset => { s with offsetReg := v }
  | .timeLo => { s with timeLo := v }
  | .timeHi => { s with timeHi := v }
  | .counterLo => { s with counterLo := v }
  | .counterHi => { s with counterHi := v }
  | .trunc => s
  | .code => s
  | .codeBcd => s
  | .codeInfo => s
  | .key j => { s with key := s.key.set j v }
  | .digest j => { s with digest := s.digest.set j v }

/-- A host write that passed the access checks (40_command_model.md R112, R114): a locked register drops it while the
engine is busy, and WBUSY reports that. -/
def writeReg (r : Reg) (v : Word) (s : State) : State :=
  if locked r && busy s then { s with wbusy := true } else storeReg r v s

/-! ### Bus transactions -/

/-- A host write of a whole word, as a request at the port. -/
def writeReq (off : BitVec 8) (v : Word) : BusReq := ⟨true, off, v, 0b1111⟩

/-- A host read, as a request at the port. -/
def readReq (off : BitVec 8) : BusReq := ⟨false, off, 0, 0⟩

/-- An ERROR response, with no effect on the block (60_exceptions.md R227): to a write it carries no data; to a read in
0x94 to 0xFC it carries 0 (20_memory.md R75); to any other read the spec states no data, so that is a free value (log
entry 6). -/
def busError (q : BusReq) (s : State) : State :=
  if q.write then { s with resp := some ⟨none, true⟩ }
  else if reservedOffset q.off then { s with resp := some ⟨some 0, true⟩ }
  else { s with resp := some ⟨some (Config.freeReadData s.freeCount), true⟩, freeCount := s.freeCount + 1 }

/-- One transaction at the port, one atomic step (20_memory.md R73 to R77, R80). -/
def serve (q : BusReq) (s : State) : State :=
  match regAt q.off with
  | none => busError q s
  | some r =>
    if q.write then
      if q.wstrb = 0b1111 then { writeReg r q.wdata s with resp := some ⟨none, false⟩ } else busError q s
    else { s with resp := some ⟨some (readReg r s), false⟩ }

/-- A transaction at a bus address (20_memory.md R71): one that does not select the block reaches no port of it, and
the block answers nothing (log entry 26). -/
def serveAt (addr : Nat) (write : Bool) (wdata : Word) (wstrb : BitVec 4) (s : State) : State :=
  match selectOffset Config.base addr with
  | some off => serve ⟨write, off, wdata, wstrb⟩ s
  | none => { s with resp := none }

/-- Whether the last response ends a POLL: its data, masked, is the value waited for (30_encoding.md R97). -/
def pollEnds (mask val : Word) (s : State) : Bool :=
  match s.resp with
  | some ⟨some v, _⟩ => v &&& mask == val
  | _ => false

/-- One read of a POLL (30_encoding.md R97, R98: "it is one `R` per iteration"). Where it does not match, the engine gets
its turn and the host reads again (log entry 21). -/
def pollOnce (off : BitVec 8) (mask val : Word) (s : State) : State :=
  let s' := serve (readReq off) s
  if pollEnds mask val s' then s' else { s' with turns := .engine :: .poll off mask val :: s'.turns }

/-! ### Reset -/

/-- Reset (70_reset_and_hazards.md R250, R251): every piece of the block's state takes its reset value, and a command in
progress is abandoned. The inputs still to come stay. The response to a transaction in flight is free
(93_implementation_defined.md A9; log entry 11). -/
def resetBlock (inFlight : Option BusReq) (s : State) : State :=
  match inFlight with
  | none => { State.reset with turns := s.turns, freeCount := s.freeCount }
  | some q =>
    { State.reset with
      turns := s.turns
      freeCount := s.freeCount + 1
      resp := some
        ⟨if q.write then none else some (Config.freeReadData s.freeCount), Config.freeResponseErr s.freeCount⟩ }

end Sys2Proof.Machine
end

