-- ==== Sys2Proof/Machine/Control.lean ====
section
/-! DEFINITION. NOP, CLEAR and the reserved commands (44_totp_and_control.md R201 to R203). -/

namespace Sys2Proof.Machine

/-- NOP (44_totp_and_control.md R201): `({}, NONE)`. -/
def execNop (s : State) : Host.Outcome State Fault Refusal := complete (.ok s) s

/-- The writes of CLEAR (44_totp_and_control.md R202): key, operands and results take their reset values; CTRL and STATUS
stay. -/
def eraseAll (s : State) : State :=
  { s with
    key := Vector.replicate 16 0
    keyLen := 0
    stepReg := 0
    offsetReg := 0
    timeLo := 0
    timeHi := 0
    counterLo := 0
    counterHi := 0
    digest := Vector.replicate 5 0
    trunc := 0
    code := 0
    codeBcd := 0
    legacyLen := 0
    tofs := 0
    valid := false }

/-- CLEAR (44_totp_and_control.md R202). -/
def execClear (s : State) : Host.Outcome State Fault Refusal := complete (.ok (eraseAll s)) s

/-- The completion of a word that is not legal (40_command_model.md R116, 44_totp_and_control.md R203). -/
def completeIllegal (s : State) : Host.Outcome State Fault Refusal := complete (.error .illegalCmd) s

/-- RESERVED_0x6 (44_totp_and_control.md R203), and so on for the eight after it. -/
def execReserved6 (s : State) : Host.Outcome State Fault Refusal := completeIllegal s
def execReserved7 (s : State) : Host.Outcome State Fault Refusal := completeIllegal s
def execReserved8 (s : State) : Host.Outcome State Fault Refusal := completeIllegal s
def execReserved9 (s : State) : Host.Outcome State Fault Refusal := completeIllegal s
def execReservedA (s : State) : Host.Outcome State Fault Refusal := completeIllegal s
def execReservedB (s : State) : Host.Outcome State Fault Refusal := completeIllegal s
def execReservedC (s : State) : Host.Outcome State Fault Refusal := completeIllegal s
def execReservedD (s : State) : Host.Outcome State Fault Refusal := completeIllegal s
def execReservedE (s : State) : Host.Outcome State Fault Refusal := completeIllegal s

/-- ILLEGAL_RSV (44_totp_and_control.md R203): a word with RSV ≠ 0 does not run its OP, whatever RSV and OP are. -/
def execIllegalRsv (_rsv : BitVec 28) (_op : BitVec 4) (s : State) : Host.Outcome State Fault Refusal := completeIllegal s

end Sys2Proof.Machine
end

