-- ==== Sys2Proof/Machine/Counter.lean ====
section
/-! DEFINITION. The counter encoder and the command ENCODE (41_counter_encoder.md R130 to R133). -/

namespace Sys2Proof.Machine

/-- The counter function ENC (41_counter_encoder.md R131): the exact sum of the quotient and the offset, refused where it
is no 64-bit unsigned number. -/
def encodeCounter (t step : Nat) (ofs : Int) : Except CmdError (BitVec 64) :=
  let c : Int := (t / step : Nat) + ofs
  if c < 0 ∨ c > 2 ^ 64 - 1 then .error .invalidCounter else .ok (BitVec.ofInt 64 c)

/-- The counter that ENCODE and TOTP compute from the registers. -/
def nextCounter (s : State) : Except CmdError (BitVec 64) :=
  encodeCounter (timeOf s) (effectiveStep s) (offsetOfCounter s)

/-- COUNTER_HI and COUNTER_LO take a 64-bit value (10_state.md R39). -/
def putCounter (c : BitVec 64) (s : State) : State :=
  { s with counterHi := c.extractLsb' 32 32, counterLo := c.extractLsb' 0 32 }

/-- EXEC_ENCODE (41_counter_encoder.md R133). -/
def encodeResult (s : State) : Except CmdError State := (nextCounter s).map fun c => putCounter c s

/-- ENCODE (41_counter_encoder.md R133). -/
def execEncode (s : State) : Host.Outcome State Fault Refusal := complete (encodeResult s) s

end Sys2Proof.Machine
end

