-- ==== Sys2Proof/Machine/Sha1.lean ====
section
/-! DEFINITION. SHA-1 (42_hmac_sha1.md R140 to R147). -/

namespace Sys2Proof.Machine

/-- Five 32-bit words: a chaining value (H0 to H4) or the working variables (a to e) of 42_hmac_sha1.md R146. -/
structure Chain where
  a : Word
  b : Word
  c : Word
  d : Word
  e : Word
deriving DecidableEq, Repr

/-- The initial hash value (42_hmac_sha1.md R142). -/
def sha1Iv : Chain := ⟨0x67452301, 0xEFCDAB89, 0x98BADCFE, 0x10325476, 0xC3D2E1F0⟩

/-- The round constant K_t (42_hmac_sha1.md R143). -/
def sha1K (t : Nat) : Word :=
  if t < 20 then 0x5A827999 else if t < 40 then 0x6ED9EBA1 else if t < 60 then 0x8F1BBCDC else 0xCA62C1D6

/-- The round function f_t (42_hmac_sha1.md R144): choose, parity, majority, parity. -/
def sha1F (t : Nat) (b c d : Word) : Word :=
  if t < 20 then (b &&& c) ||| (~~~b &&& d)
  else if t < 40 then b ^^^ c ^^^ d
  else if t < 60 then (b &&& c) ||| (b &&& d) ||| (c &&& d)
  else b ^^^ c ^^^ d

/-- `n` more words of a message schedule, the last word first (42_hmac_sha1.md R145: W_{t-3}, W_{t-8}, W_{t-14} and
W_{t-16} stand 2, 7, 13 and 15 places down). -/
def extendSchedule : Nat → List Word → List Word
  | 0, ws => ws
  | n + 1, ws =>
    extendSchedule n ((ws.getD 2 0 ^^^ ws.getD 7 0 ^^^ ws.getD 13 0 ^^^ ws.getD 15 0).rotateLeft 1 :: ws)

/-- The message schedule W_0 to W_79 of a block given as its 16 words (42_hmac_sha1.md R145). -/
def schedule (block : List Word) : List Word := (extendSchedule 64 block.reverse).reverse

/-- Round t (42_hmac_sha1.md R146). -/
def sha1Round (t : Nat) (w : Word) (h : Chain) : Chain :=
  ⟨h.a.rotateLeft 5 + sha1F t h.b h.c h.d + h.e + sha1K t + w, h.a, h.b.rotateLeft 30, h.c, h.d⟩

/-- The rounds from t on, one per word of the schedule. -/
def sha1Rounds : Nat → List Word → Chain → Chain
  | _, [], h => h
  | t, w :: ws, h => sha1Rounds (t + 1) ws (sha1Round t w h)

/-- Word by word addition modulo 2^32 (the return value of 42_hmac_sha1.md R146). -/
def Chain.add (h g : Chain) : Chain := ⟨h.a + g.a, h.b + g.b, h.c + g.c, h.d + g.d, h.e + g.e⟩

/-- The compression function (42_hmac_sha1.md R146) on a block given as its 16 words. -/
def compress (h : Chain) (block : List Word) : Chain := h.add (sha1Rounds 0 (schedule block) h)

/-- How many zero bytes the padding takes: the least z with len + 1 + z + 8 a multiple of 64 (42_hmac_sha1.md R141). -/
def zeroPadding (len : Nat) : Nat := (64 - (len + 9) % 64) % 64

/-- The padded message (42_hmac_sha1.md R141). -/
def sha1Pad (m : List Byte) : List Byte :=
  m ++ 0x80#8 :: List.replicate (zeroPadding m.length) 0#8 ++ be64 (BitVec.ofNat 64 (8 * m.length))

/-- The first n blocks of 16 words. -/
def blocksOf : Nat → List Word → List (List Word)
  | 0, _ => []
  | n + 1, ws => ws.take 16 :: blocksOf n (ws.drop 16)

/-- The chaining value after all blocks of the padded message (42_hmac_sha1.md R147). -/
def sha1Chain (m : List Byte) : Chain :=
  (blocksOf ((sha1Pad m).length / 64) (wordsOf (sha1Pad m))).foldl compress sha1Iv

/-- A chaining value as 20 bytes (42_hmac_sha1.md R147). -/
def Chain.bytes (h : Chain) : List Byte := be32 h.a ++ be32 h.b ++ be32 h.c ++ be32 h.d ++ be32 h.e

/-- SHA1(m) (42_hmac_sha1.md R147). -/
def sha1 (m : List Byte) : List Byte := (sha1Chain m).bytes

end Sys2Proof.Machine
end

