-- ==== Sys2Proof/Machine/Hmac.lean ====
section
/-! DEFINITION. HMAC-SHA1 and the command HMAC (42_hmac_sha1.md R148 to R155). -/

namespace Sys2Proof.Machine

/-- The padded key K0 (42_hmac_sha1.md R149). -/
def padKey (k : List Byte) : List Byte := k ++ List.replicate (64 - k.length) 0#8

/-- A byte string xor a repeated byte (42_hmac_sha1.md R150). -/
def xorByte (b : Byte) (k : List Byte) : List Byte := k.map (· ^^^ b)

/-- HMAC-SHA1 of a key of 1 to 64 bytes and a message (42_hmac_sha1.md R150): ipad is 0x36, opad 0x5C. -/
def hmacSha1 (k m : List Byte) : List Byte :=
  sha1 (xorByte 0x5C (padKey k) ++ sha1 (xorByte 0x36 (padKey k) ++ m))

/-- The key-length check (42_hmac_sha1.md R154). -/
def keyLegal (s : State) : Bool := decide (1 ≤ s.keyLen.toNat) && decide (s.keyLen.toNat ≤ 64)

/-- The digest of the key in the registers and the counter message `be64(c)`, or INVALID_KEY (42_hmac_sha1.md R153,
R154). -/
def digestOfCounter (c : BitVec 64) (s : State) : Except CmdError (List Byte) :=
  if keyLegal s then .ok (hmacSha1 (keyBytes s) (be64 c)) else .error .invalidKey

/-- DIGEST0 to DIGEST4 take a 20-byte digest (42_hmac_sha1.md R153, R155). -/
def putDigest (d : List Byte) (s : State) : State :=
  { s with
    digest := Vector.ofFn fun j : Fin 5 =>
      pack32 (byteAt d (4 * j.val)) (byteAt d (4 * j.val + 1)) (byteAt d (4 * j.val + 2)) (byteAt d (4 * j.val + 3)) }

/-- EXEC_HMAC (42_hmac_sha1.md R153). -/
def hmacResult (s : State) : Except CmdError State :=
  (digestOfCounter (counterOf s) s).map fun d => putDigest d s

/-- HMAC (42_hmac_sha1.md R153). -/
def execHmac (s : State) : Host.Outcome State Fault Refusal := complete (hmacResult s) s

end Sys2Proof.Machine
end

