-- ==== Sys2Proof/Machine/Truncation.lean ====
section
/-! DEFINITION. The truncation pipeline and the commands TRUNC and HOTP (43_truncation.md R180 to R187). -/

namespace Sys2Proof.Machine

/-- The truncation offset o (43_truncation.md R180): the low nibble of the last byte. -/
def truncOffset (d : List Byte) : BitVec 4 := (byteAt d 19 &&& 0x0F).extractLsb' 0 4

/-- The 31-bit truncated value t (43_truncation.md R181), on integers as the rule writes it. -/
def truncValue (d : List Byte) : Nat :=
  let o := (truncOffset d).toNat
  ((byteAt d o).toNat &&& 0x7F) <<< 24 ||| (byteAt d (o + 1)).toNat <<< 16 ||| (byteAt d (o + 2)).toNat <<< 8
    ||| (byteAt d (o + 3)).toNat

/-- The code (43_truncation.md R182). -/
def codeOf (t : Nat) : Nat := t % 1000000

/-- Decimal digit i of v (43_truncation.md R183). -/
def digit (v i : Nat) : Nat := v / 10 ^ i % 10

/-- The six binary-coded-decimal digits of a code (43_truncation.md R183). -/
def bcdOf (v : Nat) : Nat :=
  digit v 0 + digit v 1 * 16 + digit v 2 * 16 ^ 2 + digit v 3 * 16 ^ 3 + digit v 4 * 16 ^ 4 + digit v 5 * 16 ^ 5

/-- `ndigits` by its fuel: how often t can be divided by 10 before a single digit is left, and one. -/
def countDigits : Nat → Nat → Nat
  | 0, _ => 1
  | fuel + 1, t => if t < 10 then 1 else countDigits fuel (t / 10) + 1

/-- How many decimal digits t has, `ndigits(0) = 1` (00_scope.md R11). -/
def ndigits (t : Nat) : Nat := countDigits t t

/-- The legacy length (43_truncation.md R184). -/
def legacyLength (t : Nat) : Nat := min 6 (ndigits t)

/-- The truncation function TRUNCF (43_truncation.md R185): TRUNC, CODE, CODE_BCD and CODE_INFO from a digest. -/
def putTruncation (d : List Byte) (s : State) : State :=
  { s with
    trunc := BitVec.ofNat 31 (truncValue d)
    code := BitVec.ofNat 20 (codeOf (truncValue d))
    codeBcd := BitVec.ofNat 24 (bcdOf (codeOf (truncValue d)))
    legacyLen := BitVec.ofNat 3 (legacyLength (truncValue d))
    tofs := truncOffset d
    valid := true }

/-- EXEC_TRUNC (43_truncation.md R186); it never fails. -/
def truncResult (s : State) : Except CmdError State := .ok (putTruncation (digestBytes s) s)

/-- TRUNC (43_truncation.md R186). -/
def execTrunc (s : State) : Host.Outcome State Fault Refusal := complete (truncResult s) s

/-- The writes of HOTP for counter c (43_truncation.md R187): the digest, and its truncation. TOTP shares them
(44_totp_and_control.md R200). -/
def hotpOfCounter (c : BitVec 64) (s : State) : Except CmdError State :=
  (digestOfCounter c s).map fun d => putTruncation d (putDigest d s)

/-- HOTP (43_truncation.md R187). -/
def execHotp (s : State) : Host.Outcome State Fault Refusal := complete (hotpOfCounter (counterOf s) s) s

end Sys2Proof.Machine
end

