-- ==== Sys2Proof/Machine/Totp.lean ====
section
/-! DEFINITION. The command TOTP (44_totp_and_control.md R200). -/

namespace Sys2Proof.Machine

/-- EXEC_TOTP (44_totp_and_control.md R200): the counter is checked first (60_exceptions.md R229), and the HMAC uses the
counter just computed. -/
def totpResult (s : State) : Except CmdError State :=
  match nextCounter s with
  | .error e => .error e
  | .ok c => (hotpOfCounter c s).map fun s' => putCounter c s'

/-- TOTP (44_totp_and_control.md R200). -/
def execTotp (s : State) : Host.Outcome State Fault Refusal := complete (totpResult s) s

end Sys2Proof.Machine
end

