-- ==== Sys2Proof/Machine/Engine.lean ====
section
/-! DEFINITION. The agents' turns: the engine completes the command it holds, the host's transactions are served, reset
resets (20_memory.md R80; 40_command_model.md R116, R118; 60_exceptions.md R240). -/

namespace Sys2Proof.Machine

/-- The engine's turn. Busy, it runs the command that acceptance left in ENG to its completion; idle, it "changes no
state on its own" (60_exceptions.md R240). -/
def engineTurn (s : State) : Host.Outcome State Fault Refusal :=
  match s.eng with
  | .idle => .next s
  | .busy op ok => exec (commandOf op ok) s

/-- One turn, already taken off the list. -/
def takeTurn (t : Turn) (s : State) : Host.Outcome State Fault Refusal :=
  match t with
  | .host q => .next (serve q s)
  | .bus addr write wdata wstrb => .next (serveAt addr write wdata wstrb s)
  | .poll off mask val => .next (pollOnce off mask val s)
  | .engine => engineTurn s
  | .reset inFlight => .next (resetBlock inFlight s)

/-- The next turn of the list; with nothing scheduled the engine moves, so that a busy engine always completes
(40_command_model.md R118: weak fairness). -/
def nextTurn (s : State) : Host.Outcome State Fault Refusal :=
  match s.turns with
  | [] => engineTurn s
  | t :: rest => takeTurn t { s with turns := rest }

/-- The state in which the command of a table word has been accepted and the engine moves next (log entry 16). -/
def fetchNext (s : State) (nbits w : Nat) : State :=
  accept (tableWord nbits w) { s with turns := .engine :: s.turns }

end Sys2Proof.Machine
end

