-- ==== Sys2Proof/Machine/Step.lean ====
section
/-! DEFINITION. One step of the machine, and how the host places a command to be run next. -/

namespace Sys2Proof.Machine

/-- One step: one host transaction, one completion or one reset (20_memory.md R80). -/
def step (s : State) : Host.Outcome State Fault Refusal := nextTurn s

/-- `s` with the command of a table word accepted, so that the next step runs it to its completion. -/
def State.withFetchWord (s : State) (nbits w : Nat) : State := fetchNext s nbits w

end Sys2Proof.Machine
end

