-- ==== Sys2Proof/Machine/HostProgram.lean ====
section
/-! DEFINITION. The host's side, as far as the spec gives it: the notation of host programs and its expansion into
transactions (30_encoding.md R96 to R98), the code strings (44_totp_and_control.md R205, R206), and the host's
procedures (R207, R208; 42_hmac_sha1.md R152) run against the block. No state of the block is here. -/

namespace Sys2Proof.Machine

/-- A statement of a host program (30_encoding.md R96, R97). -/
inductive Stmt where
  | wr (off : BitVec 8) (v : Word)
  | rd (off : BitVec 8)
  | command (i : Instr)
  | poll (off : BitVec 8) (mask val : Word)
  | wait
  | ack
  | ld64 (hi lo : BitVec 8) (v : BitVec 64)
  | ldkey (k : List Byte)
deriving DecidableEq, Repr

/-- The words of LDKEY (30_encoding.md R97): missing bytes are 0. -/
def keyWords : List Byte → List Word
  | b0 :: b1 :: b2 :: b3 :: rest => pack32 b0 b1 b2 b3 :: keyWords rest
  | [b0, b1, b2] => [pack32 b0 b1 b2 0]
  | [b0, b1] => [pack32 b0 b1 0 0]
  | [b0] => [pack32 b0 0 0 0]
  | [] => []

/-- A host write of a whole word, as a turn. -/
def wrTurn (off : BitVec 8) (v : Word) : Turn := .host (writeReq off v)

/-- Writes to consecutive KEY registers from KEYj on. -/
def keyWrites : Nat → List Word → List Turn
  | _, [] => []
  | j, w :: ws => wrTurn (BitVec.ofNat 8 (0x40 + 4 * j)) w :: keyWrites (j + 1) ws

/-- The turns a statement stands for (30_encoding.md R96, R97). -/
def Stmt.turns : Stmt → List Turn
  | .wr off v => [wrTurn off v]
  | .rd off => [.host (readReq off)]
  | .command i => [wrTurn (offsetOf .cmd) (Sys2Proof.encode i)]
  | .poll off mask val => [.poll off mask val]
  | .wait => [.poll (offsetOf .status) 0x00000003 0x00000002]
  | .ack => [wrTurn (offsetOf .status) 0x0000000E]
  | .ld64 hi lo v => [wrTurn hi (v.extractLsb' 32 32), wrTurn lo (v.extractLsb' 0 32)]
  | .ldkey k => keyWrites 0 (keyWords k) ++ [wrTurn (offsetOf .keyLen) (BitVec.ofNat 32 k.length)]

/-- The schedule of a host program, statement after statement. -/
def programTurns (p : List Stmt) : List Turn := p.flatMap Stmt.turns

/-- A hexadecimal digit. -/
def hexChar (n : Nat) : Char := "0123456789ABCDEF".toList.getD n '0'

/-- The last k hexadecimal digits of v, most significant first. -/
def hexDigits (k v : Nat) : List Char := (List.range k).reverse.map fun i => hexChar (v / 16 ^ i % 16)

/-- The four strobe bits, wstrb[3] first. -/
def strobeDigits (b : BitVec 4) : List Char := (List.range 4).reverse.map fun i => if b.getLsbD i then '1' else '0'

/-- The written form of a transaction (30_encoding.md R98). -/
def BusReq.text (q : BusReq) : List Char :=
  if q.write then
    'W' :: ' ' :: hexDigits 2 q.off.toNat ++ ' ' :: hexDigits 8 q.wdata.toNat ++
      if q.wstrb = 0b1111 then [] else " strb ".toList ++ strobeDigits q.wstrb
  else 'R' :: ' ' :: hexDigits 2 q.off.toNat

/-! ### Code strings (44_totp_and_control.md R205, R206) -/

/-- The zero-padded code string of a CODE_BCD word (44_totp_and_control.md R205): its six digits, most significant
first. -/
def paddedText (bcd : Word) : List Char :=
  (List.range 6).reverse.map fun i => Char.ofNat ('0'.toNat + bcd.toNat / 16 ^ i % 16)

/-- The legacy code string of a CODE_BCD and a CODE_INFO word (44_totp_and_control.md R206): the last LEGACY_LEN
digits. -/
def legacyText (bcd info : Word) : List Char := (paddedText bcd).drop (6 - (info.extractLsb' 0 3).toNat)

/-- The zero-padded code string of what a block holds. -/
def codeString (s : State) : List Char := paddedText (readReg .codeBcd s)

/-- The legacy code string of what a block holds. -/
def legacyString (s : State) : List Char := legacyText (readReg .codeBcd s) (readReg .codeInfo s)

/-- Which code string the host forms. 44_totp_and_control.md R207 allows "R205 or R206", and 93_implementation_defined.md
A5 says "the host chooses which to use"; so the procedures take it as an argument (log entry 28). -/
inductive CodeForm where
  | padded
  | legacy
deriving DecidableEq, Repr

/-! ### Running a host program -/

/-- The data of the read that a step from s to t served, if it served one at the port. -/
def readBack (s t : State) : List Word :=
  match s.turns, t.resp with
  | .host ⟨false, _, _, _⟩ :: _, some ⟨some v, _⟩ => [v]
  | .poll _ _ _ :: _, some ⟨some v, _⟩ => [v]
  | _, _ => []

/-- `k` steps from s: the state after them, and the data of every read on the way, in order. -/
def runReads : Nat → State → State × List Word
  | 0, s => (s, [])
  | k + 1, s =>
    match nextTurn s with
    | .next t => ((runReads k t).1, readBack s t ++ (runReads k t).2)
    | _ => (s, [])

/-- How many steps a statement takes at most: a WAIT of a busy block takes three, every other one a step per transaction
(30_encoding.md R97; log entry 21). -/
def Stmt.steps : Stmt → Nat
  | .wait => 3
  | p => p.turns.length

/-- A host program run from s to its end, with the data it read. -/
def runHost (p : List Stmt) (s : State) : State × List Word :=
  runReads (p.map Stmt.steps).sum { s with turns := programTurns p }

/-! ### The host's procedures (44_totp_and_control.md R207, R208) -/

/-- The key the host loads for a secret of any length (42_hmac_sha1.md R152). -/
def hostKey (k : List Byte) : List Byte := if k.length ≤ 64 then k else sha1 k

/-- The reads that end a TOTP: CODE_BCD, and before it CODE_INFO where the legacy string is to be formed. -/
def codeReads : CodeForm → List Stmt
  | .padded => [.rd (offsetOf .codeBcd)]
  | .legacy => [.rd (offsetOf .codeInfo), .rd (offsetOf .codeBcd)]

/-- Key and time, as R207 loads them for a decoded secret and a time in whole seconds; STEP = 0. -/
def loadProgram (k : List Byte) (now : BitVec 64) : List Stmt :=
  [.ldkey (hostKey k), .ld64 (offsetOf .timeHi) (offsetOf .timeLo) now, .wr (offsetOf .step) 0]

/-- One TOTP at an OFFSET, waited for and read out. -/
def slotProgram (form : CodeForm) (ofs : Word) : List Stmt :=
  [.wr (offsetOf .offset) ofs, .command .totp, .wait] ++ codeReads form

/-- The host's `totp` (44_totp_and_control.md R207), for a decoded secret and a time in whole seconds. -/
def totpProgram (form : CodeForm) (k : List Byte) (now : BitVec 64) : List Stmt :=
  loadProgram k now ++ slotProgram form 0

/-- The error that a STATUS word reports (10_state.md R30, R32; 60_exceptions.md R221). -/
def statusError (status : Word) : Option CmdError :=
  if status.getLsbD 2 then
    if status.extractLsb' 8 4 = 1 then some .illegalCmd
    else if status.extractLsb' 8 4 = 2 then some .invalidCounter
    else some .invalidKey
  else none

/-- What the host makes of the data a TOTP read, the last word first: the code string, or the error in the STATUS word that
ended the WAIT (70_reset_and_hazards.md R256: it "must check ERR in that same read"). None where the reads are not all
there. -/
def codeAnswer (form : CodeForm) (data : List Word) : Option (Except CmdError (List Char)) :=
  match form, data.reverse with
  | .padded, bcd :: status :: _ =>
    some (match statusError status with
      | some e => .error e
      | none => .ok (paddedText bcd))
  | .legacy, bcd :: info :: status :: _ =>
    some (match statusError status with
      | some e => .error e
      | none => .ok (legacyText bcd info))
  | _, _ => none

/-- The host's `totp` against the block s (44_totp_and_control.md R207), from the decoded secret to the code string. -/
def hostTotp (form : CodeForm) (k : List Byte) (now : BitVec 64) (s : State) : Option (Except CmdError (List Char)) :=
  codeAnswer form (runHost (totpProgram form k now) s).2

/-- The three slots of the window, OFFSET -1, 0 and +1 (44_totp_and_control.md R208). -/
def verifyOffsets : List Word := [0xFFFFFFFF, 0, 1]

/-- Whether a slot's code string equals the candidate. INVALID_COUNTER "means that window slot does not exist, and the
host treats it as a non-match" (44_totp_and_control.md R208, 90_conflicts.md C7). INVALID_KEY is passed on: R208 says that
verify "only propagates `InvalidSecret`", and INVALID_KEY "stands for" that (60_exceptions.md R224); R208 does not name
INVALID_KEY itself, so this is the model's reading (DEDUCED, log entry 27). -/
def slotMatches (candidate : List Char) : Except CmdError (List Char) → Except CmdError Bool
  | .ok text => .ok (text == candidate)
  | .error .invalidCounter => .ok false
  | .error .invalidKey => .error .invalidKey
  | .error .illegalCmd => .error .illegalCmd

/-- The answer of `verify` from the slots' code strings (44_totp_and_control.md R208): true at the first match. -/
def verifyAnswer (candidate : List Char) : List (Except CmdError (List Char)) → Except CmdError Bool
  | [] => .ok false
  | slot :: rest =>
    match slotMatches candidate slot with
    | .ok true => .ok true
    | .ok false => verifyAnswer candidate rest
    | .error e => .error e

/-- The slots run one after the other, each from the block the one before left. -/
def runSlots (form : CodeForm) : List Word → State → Option (List (Except CmdError (List Char)))
  | [], _ => some []
  | ofs :: rest, s =>
    match codeAnswer form (runHost (slotProgram form ofs) s).2, runSlots form rest (runHost (slotProgram form ofs) s).1 with
    | some slot, some slots => some (slot :: slots)
    | _, _ => none

/-- The host's `verify` against the block s (44_totp_and_control.md R208): key, TIME and STEP once, then the slots. -/
def hostVerify (form : CodeForm) (k : List Byte) (candidate : List Char) (now : BitVec 64) (s : State) :
    Option (Except CmdError Bool) :=
  (runSlots form verifyOffsets (runHost (loadProgram k now) s).1).map (verifyAnswer candidate)

end Sys2Proof.Machine
end

