-- ==== Sys2Proof/Safety.lean ====
section
/-! DEFINITION. What counts as a safe state, and the terms the statements use: the invariant of the block, the block's
own state without the model's fields, and the registers by kind (10_state.md R50). -/

namespace Sys2Proof.Machine

/-- The number of a byte string read big-endian, most significant byte first. -/
def beNat (d : List Byte) : Nat := d.foldl (fun n b => n * 256 + b.toNat) 0

/-- The block's state alone: the model's own fields are put at fixed values, so that equality of two blocks is equality of
every piece of state the spec gives the machine. -/
def State.block (s : State) : State := { s with turns := [], resp := none, freeCount := 0 }

/-- The operand registers of two states agree (10_state.md R50). -/
structure SameOperands (s t : State) : Prop where
  keyLen : t.keyLen = s.keyLen
  step : t.stepReg = s.stepReg
  offset : t.offsetReg = s.offsetReg
  timeLo : t.timeLo = s.timeLo
  timeHi : t.timeHi = s.timeHi
  counterLo : t.counterLo = s.counterLo
  counterHi : t.counterHi = s.counterHi
  key : t.key = s.key
  digest : t.digest = s.digest

/-- The result registers of two states agree (10_state.md R50). -/
structure SameResults (s t : State) : Prop where
  trunc : t.trunc = s.trunc
  code : t.code = s.code
  codeBcd : t.codeBcd = s.codeBcd
  legacyLen : t.legacyLen = s.legacyLen
  tofs : t.tofs = s.tofs
  valid : t.valid = s.valid

/-- The invariant of the block: the facts that 10_state.md R22, R32, R33, R43 to R45 and 43_truncation.md R189 state of
every reachable state. -/
structure BlockInv (s : State) : Prop where
  /-- R32: "ERRCODE ≠ 0 exactly when ERR = 1". -/
  errIffCode : s.err = true ↔ s.errcode ≠ 0
  /-- R221: codes 4 to 15 are never produced. -/
  errcodeKnown : s.errcode.toNat ≤ 3
  /-- R111: while a command is in progress DONE, ERR and ERRCODE are 0, LASTOP is its OP, and a positive verdict stands
  only with the OP of a legal command. -/
  busyFlags : ∀ op ok, s.eng = .busy op ok →
    s.done = false ∧ s.err = false ∧ s.lastop = op ∧ (ok = true → legal (op.setWidth 32) = true)
  /-- R182: CODE is TRUNC modulo 10^6. -/
  codeOfTrunc : s.code.toNat = s.trunc.toNat % 1000000
  /-- R183: CODE_BCD holds the six decimal digits of CODE. -/
  bcdOfCode : ∀ i, i < 6 → s.codeBcd.toNat / 16 ^ i % 16 = s.code.toNat / 10 ^ i % 10
  /-- R45, R184: after a truncation LEGACY_LEN is min(6, ndigits(t)). -/
  legacyOfTrunc : s.valid = true → s.legacyLen.toNat = min 6 (ndigits s.trunc.toNat)
  /-- R45: before one, the result registers are 0. -/
  emptyResults : s.valid = false → s.trunc = 0 ∧ s.legacyLen = 0 ∧ s.tofs = 0

/-- A run of k steps from s (Host.Core.run of this machine). -/
def runSteps (k : Nat) (s : State) : Host.Outcome State Fault Refusal := Host.Core.run Sys2Proof.core k s

/-- What a host that knows the secret expects of counter c: the last six characters of the decimal form of the truncated
value, with zeros in front or, in the legacy form, without. -/
def expectedCode (form : CodeForm) (k : List Byte) (c : Nat) : List Char :=
  let digits := Nat.toDigits 10 (truncValue (hmacSha1 (hostKey k) (be64 (BitVec.ofNat 64 c))))
  match form with
  | .padded => (List.replicate 6 '0' ++ digits).drop digits.length
  | .legacy => digits.drop (digits.length - 6)

end Sys2Proof.Machine
end

