-- ==== Sys2Proof/Certificates/Slice0/Obligations.lean ====
section
/-! DEFINITION. The statements for the provers. A transaction is scheduled by putting it at the head of `turns`; `rest` is
whatever comes after it. That the order of the agents' steps is the list `turns` is the model's (log entry 2). -/

open Sys2Proof Sys2Proof.Machine

/-! ### Command words (30_encoding.md) -/

/-- R90, R92, R203: no bit of a command word is dropped between the encoder and the decoder. -/
def Obligations.EncodedCommandDecodesToItself : Prop :=
  ∀ (i : Instr) (rest : List Byte), i.WellFormed →
    decodeBytes (encodeBytes i ++ rest) = .ok (i, rest) ∧ decodeTableWord 32 (encode i).toNat = some i

/-- R93, R94: every one of the 2^32 words is the word of exactly one command. -/
def Obligations.EveryWordIsTheWordOfOneCommand : Prop :=
  ∀ w : Word, (decode w).WellFormed ∧ encode (decode w) = w ∧ ∀ i : Instr, i.WellFormed → encode i = w → i = decode w

/-- R93: the verdict `legal(w)`, and which commands have it. -/
def Obligations.LegalVerdictIsTheOpcodeSet : Prop :=
  ∀ w : Word,
    (legal w = true ↔ w.toNat / 16 = 0 ∧ w.toNat % 16 ∈ [0x0, 0x1, 0x2, 0x3, 0x4, 0x5, 0xF]) ∧
      (legal w = true ↔ decode w ∈ [.nop, .encode, .hmac, .trunc, .hotp, .totp, .clear])

/-- R92: the words of the opcode map (a sanity statement on written-out words). -/
def Obligations.OpcodeMapWords : Prop :=
  decode 0x00000000 = .nop ∧ decode 0x00000001 = .encode ∧ decode 0x00000002 = .hmac ∧ decode 0x00000003 = .trunc ∧
    decode 0x00000004 = .hotp ∧ decode 0x00000005 = .totp ∧ decode 0x0000000F = .clear ∧
    decode 0x00000006 = .reserved6 ∧ decode 0x0000000E = .reservedE ∧ decode 0x00000015 = .illegalRsv 0x0000001 0x5 ∧
    decode 0x80000004 = .illegalRsv 0x8000000 0x4

/-! ### A step runs the accepted command (40_command_model.md) -/

/-- The engine's turn, scheduled or with nothing scheduled, runs exactly the command that ENG holds; and a placed command
is the one the next step runs. That the engine moves when nothing is scheduled, and what `withFetchWord` places, are the
model's (log entries 2, 16). -/
def Obligations.StepRunsTheAcceptedCommand : Prop :=
  (∀ (i : Instr) (s : State) (rest : List Turn), i.WellFormed → s.eng = .busy (opField i) (isLegalCommand i) →
      (s.turns = .engine :: rest → step s = exec i { s with turns := rest }) ∧ (s.turns = [] → step s = exec i s)) ∧
    ∀ (s : State) (w : Word), step (s.withFetchWord 32 w.toNat) = exec (decode w) (accept w s)

/-- From the CMD write to the completion: the word that was written is decoded and run, on the registers of the state of
the write. -/
def Obligations.CmdWriteThenEngineRunsTheDecodedCommand : Prop :=
  ∀ (s : State) (w : Word) (rest : List Turn), busy s = false →
    s.turns = .host (writeReq 0x0C w) :: .engine :: rest →
    runSteps 2 s = exec (decode w) (accept w { s with turns := rest, resp := some ⟨none, false⟩ })

/-- R111: acceptance. -/
def Obligations.AcceptanceOfACommand : Prop :=
  ∀ (s : State) (w : Word) (rest : List Turn), busy s = false → s.turns = .host (writeReq 0x0C w) :: rest →
    ∃ t, step s = .next t ∧ busy t = true ∧
      t = { s with
        eng := .busy (w.extractLsb' 0 4) (decide (w.toNat < 6) || decide (w.toNat = 15))
        lastop := w.extractLsb' 0 4
        done := false
        err := false
        errcode := 0
        turns := rest
        resp := some ⟨none, false⟩ }

/-- R112: a command write while busy. -/
def Obligations.CommandWriteWhileBusyIsDropped : Prop :=
  ∀ (s : State) (w : Word) (rest : List Turn), busy s = true → s.turns = .host (writeReq 0x0C w) :: rest →
    step s = .next { s with wbusy := true, turns := rest, resp := some ⟨none, false⟩ }

/-- R114: the write lock, over the offsets of the locked registers. -/
def Obligations.LockedRegistersKeepTheirValueWhileBusy : Prop :=
  (∀ (s : State) (off : BitVec 8) (v : Word) (rest : List Turn),
      off.toNat % 4 = 0 → off.toNat = 0x0C ∨ 0x14 ≤ off.toNat ∧ off.toNat ≤ 0x2C ∨ 0x40 ≤ off.toNat ∧ off.toNat ≤ 0x90 →
      busy s = true → s.turns = .host (writeReq off v) :: rest →
      step s = .next { s with wbusy := true, turns := rest, resp := some ⟨none, false⟩ }) ∧
    ∀ (s : State) (v : Word) (j : Fin 16) (k : Fin 5) (rest : List Turn), busy s = false →
      let stored (off : BitVec 8) (u : State) : Prop :=
        step { s with turns := .host (writeReq off v) :: rest } =
          .next { u with turns := rest, resp := some ⟨none, false⟩ }
      stored 0x0C (accept v s) ∧ stored 0x14 { s with keyLen := v.extractLsb' 0 7 } ∧ stored 0x18 { s with stepReg := v } ∧
        stored 0x1C { s with offsetReg := v } ∧ stored 0x20 { s with timeLo := v } ∧ stored 0x24 { s with timeHi := v } ∧
        stored 0x28 { s with counterLo := v } ∧ stored 0x2C { s with counterHi := v } ∧
        stored (BitVec.ofNat 8 (0x40 + 4 * j.val)) { s with key := s.key.set j v } ∧
        stored (BitVec.ofNat 8 (0x80 + 4 * k.val)) { s with digest := s.digest.set k v }

/-- R34: a host write of STATUS, busy or not; the reserved bits that are read after it; and a write that is partial or
misaligned. -/
def Obligations.StatusWriteClearsTheNamedBits : Prop :=
  ∀ (s : State) (v : Word) (rest : List Turn),
    (s.turns = .host (writeReq 0x10 v) :: rest →
      ∃ t, step s = .next t ∧ readReg .status t &&& 0xFFFF00F0 = 0 ∧
        t = { s with
          done := if v[1] then false else s.done
          err := if v[2] then false else s.err
          errcode := if v[2] then 0 else s.errcode
          wbusy := if v[3] then false else s.wbusy
          turns := rest
          resp := some ⟨none, false⟩ }) ∧
    ∀ (off : BitVec 8) (strb : BitVec 4), off = 0x10 ∧ strb ≠ 0b1111 ∨ off.toNat % 4 ≠ 0 →
      s.turns = .host ⟨true, off, v, strb⟩ :: rest →
      step s = .next { s with turns := rest, resp := some ⟨none, true⟩ }

/-- R26: CTRL holds IE, is 0 after reset, is never locked, drives `irq` from DONE, and reads back IE only. -/
def Obligations.CtrlWriteSetsIeAlsoWhileBusy : Prop :=
  State.reset.ie = false ∧
    ∀ (s : State) (v : Word) (rest : List Turn),
      (s.turns = .host (writeReq 0x08 v) :: rest →
        ∃ t, step s = .next t ∧ irq t = (v[0] && s.done) ∧
          t = { s with ie := v[0], turns := rest, resp := some ⟨none, false⟩ }) ∧
      (s.turns = .host (readReq 0x08) :: rest →
        step s = .next { s with turns := rest, resp := some ⟨some (if s.ie then 1 else 0), false⟩ })

/-- R24, R25: ID and VERSION are constants, and writes to them are ignored with OKAY. -/
def Obligations.IdAndVersionNeverChange : Prop :=
  ∀ (s : State) (v : Word) (rest : List Turn),
    (s.turns = .host (readReq 0x00) :: rest →
      step s = .next { s with turns := rest, resp := some ⟨some 0x544F5450, false⟩ }) ∧
    (s.turns = .host (readReq 0x04) :: rest →
      step s = .next { s with turns := rest, resp := some ⟨some 0x00010000, false⟩ }) ∧
    (s.turns = .host (writeReq 0x00 v) :: rest ∨ s.turns = .host (writeReq 0x04 v) :: rest →
      step s = .next { s with turns := rest, resp := some ⟨none, false⟩ })

/-- R76 (its fourth point), R42 to R45: the result registers ignore writes with OKAY, busy or not, and set no WBUSY. -/
def Obligations.ResultRegistersIgnoreWrites : Prop :=
  ∀ (s : State) (off : BitVec 8) (v : Word) (rest : List Turn), off ∈ [0x30#8, 0x34#8, 0x38#8, 0x3C#8] →
    s.turns = .host (writeReq off v) :: rest →
    step s = .next { s with turns := rest, resp := some ⟨none, false⟩ }

/-- R73 to R75: exactly the misaligned, reserved and partial-strobe transactions get ERROR, and they have no effect on the
block; an aligned read in the reserved range returns 0. -/
def Obligations.BadAccessesGetErrorAndDoNothing : Prop :=
  ∀ (s : State) (q : BusReq) (rest : List Turn), s.turns = .host q :: rest →
    ∃ t d e, step s = .next t ∧ t.resp = some ⟨d, e⟩ ∧ t.turns = rest ∧
      (e = true ↔ q.off.toNat % 4 ≠ 0 ∨ 0x94 ≤ q.off.toNat ∧ q.off.toNat ≤ 0xFC ∨ q.write = true ∧ q.wstrb ≠ 0b1111) ∧
      (e = true → t.block = s.block) ∧
      (q.write = false → ∃ v, d = some v ∧ (q.off.toNat % 4 = 0 → 0x94 ≤ q.off.toNat ∧ q.off.toNat ≤ 0xFC → v = 0))

/-- R75 at misaligned offsets. That the range "0x94 to 0xFC" takes these in is the model's reading (log entry 7). -/
def Obligations.MisalignedReadsInTheReservedRangeReturnZero : Prop :=
  ∀ (s : State) (off : BitVec 8) (rest : List Turn), off.toNat % 4 ≠ 0 → 0x94 ≤ off.toNat → off.toNat ≤ 0xFC →
    s.turns = .host (readReq off) :: rest →
    step s = .next { s with turns := rest, resp := some ⟨some 0, true⟩ }

/-- R76 (its first point): no read, of any offset, changes the block. -/
def Obligations.ReadsChangeNoState : Prop :=
  ∀ (s : State) (q : BusReq) (rest : List Turn), q.write = false → s.turns = .host q :: rest →
    ∃ t, step s = .next t ∧ t.block = s.block ∧ t.turns = rest ∧ irq t = irq s

/-- What a host reads back after it wrote a register of an idle block: the value, less the reserved bits; nothing of a
key. -/
def Obligations.WrittenRegistersReadBack : Prop :=
  ∀ (s : State) (off : BitVec 8) (v : Word), busy s = false →
    let back (off : BitVec 8) (r : Word) : Prop :=
      ∃ t, runSteps 2 { s with turns := [.host (writeReq off v), .host (readReq off)] } = .next t ∧
        t.resp = some ⟨some r, false⟩
    back 0x14 (v &&& 0x7F) ∧
      (off.toNat % 4 = 0 → 0x18 ≤ off.toNat ∧ off.toNat ≤ 0x2C ∨ 0x80 ≤ off.toNat ∧ off.toNat ≤ 0x90 → back off v) ∧
      (off.toNat % 4 = 0 → 0x40 ≤ off.toNat ∧ off.toNat ≤ 0x7C → back off 0)

/-- R47: reserved fields read 0 in every state and ignore writes; CMD[31:4] is checked, not stored. -/
def Obligations.ReservedBitsReadZeroAndIgnoreWrites : Prop :=
  ∀ (s : State) (v : Word) (rest : List Turn),
    let after (q : BusReq) : Host.Outcome State Fault Refusal := step { s with turns := .host q :: rest }
    let reads (off : BitVec 8) (mask : Word) : Prop :=
      ∃ t d, after (readReq off) = .next t ∧ t.resp = some ⟨some d, false⟩ ∧ d &&& mask = 0
    let ignores (off : BitVec 8) (mask : Word) : Prop := after (writeReq off v) = after (writeReq off (v &&& ~~~mask))
    reads 0x08 0xFFFFFFFE ∧ reads 0x10 0xFFFF00F0 ∧ reads 0x14 0xFFFFFF80 ∧ reads 0x30 0x80000000 ∧
      reads 0x34 0xFFF00000 ∧ reads 0x38 0xFF000000 ∧ reads 0x3C 0xFFFFFE08 ∧
      ignores 0x08 0xFFFFFFFE ∧ ignores 0x10 0xFFFF00F0 ∧ ignores 0x14 0xFFFFFF80 ∧ ignores 0x30 0x80000000 ∧
      ignores 0x34 0xFFF00000 ∧ ignores 0x38 0xFF000000 ∧ ignores 0x3C 0xFFFFFE08 ∧
      reads 0x0C 0xFFFFFFFF ∧
      (busy s = false → 16 ≤ v.toNat →
        ∃ t, after (writeReq 0x0C v) = .next t ∧ t.eng = .busy (v.extractLsb' 0 4) false ∧ t.lastop = v.extractLsb' 0 4)

/-- The layout of STATUS (10_state.md, section 3) and R45: the words a host reads, bit by bit as numbers. -/
def Obligations.StatusAndCodeInfoReadAsLaidOut : Prop :=
  ∀ (s : State) (rest : List Turn),
    (∃ t v, step { s with turns := .host (readReq 0x10) :: rest } = .next t ∧ t.resp = some ⟨some v, false⟩ ∧
      v.toNat = (busy s).toNat + 2 * s.done.toNat + 4 * s.err.toNat + 8 * s.wbusy.toNat + 256 * s.errcode.toNat +
        4096 * s.lastop.toNat) ∧
    ∃ t v, step { s with turns := .host (readReq 0x3C) :: rest } = .next t ∧ t.resp = some ⟨some v, false⟩ ∧
      v.toNat = s.legacyLen.toNat + 16 * s.tofs.toNat + 256 * s.valid.toNat

/-- R40, R235: no sequence of host transactions, reads and writes, tells two blocks apart that differ in the key only. -/
def Obligations.KeyIsInvisibleToTheHost : Prop :=
  ∀ (qs : List BusReq) (s : State) (k : Vector Word 16) (rest : List Turn), s.turns = qs.map .host ++ rest →
    ∃ t k', runSteps qs.length s = .next t ∧ runSteps qs.length { s with key := k } = .next { t with key := k' }

/-- R71: address decoding; the base is a multiple of 256, so off[7:0] is the low byte of the address. That an address
outside the window changes nothing is the model's reading (log entry 26). -/
def Obligations.AddressDecodingSelectsTheWindow : Prop :=
  Config.base % 256 = 0 ∧
    ∀ (s : State) (a : Nat) (write : Bool) (v : Word) (strb : BitVec 4) (rest : List Turn),
      (Config.base ≤ a ∧ a < Config.base + 256 →
        step { s with turns := .bus a write v strb :: rest } =
          step { s with turns := .host ⟨write, BitVec.ofNat 8 a, v, strb⟩ :: rest }) ∧
      (¬(Config.base ≤ a ∧ a < Config.base + 256) →
        ∃ t, step { s with turns := .bus a write v strb :: rest } = .next t ∧ t.block = s.block ∧ t.turns = rest)

/-! ### Completion (40_command_model.md) -/

/-- R116, R120, R31: whatever the command, its completion ends it and touches neither CTRL, WBUSY, LASTOP nor the host's
side. -/
def Obligations.EveryCompletionEndsItsCommand : Prop :=
  ∀ (i : Instr) (s : State), ∃ t, exec i s = .next t ∧ t.eng = .idle ∧ busy t = false ∧ t.done = true ∧ t.ie = s.ie ∧
    t.wbusy = s.wbusy ∧ t.lastop = s.lastop ∧ t.turns = s.turns ∧ t.resp = s.resp ∧ t.freeCount = s.freeCount

/-- R117: an error completion writes STATUS only. ERR was cleared by acceptance (R111), so ERR tells it. -/
def Obligations.ErrorCompletionWritesOnlyStatus : Prop :=
  ∀ (i : Instr) (s t : State), s.err = false → exec i s = .next t → t.err = true →
    t = { s with err := true, errcode := t.errcode, done := true, eng := .idle } ∧ t.errcode ∈ [1#4, 2#4, 3#4]

/-- R230, R231: what raises, masks and clears the interrupt, and what does not. -/
def Obligations.InterruptFollowsDoneAndEnable : Prop :=
  (∀ (i : Instr) (s t : State), exec i s = .next t → irq t = s.ie) ∧
    (∀ (s t : State) (v : Word) (rest : List Turn), s.turns = .host (writeReq 0x08 v) :: rest → step s = .next t →
      irq t = (v[0] && s.done)) ∧
    (∀ (s t : State) (v : Word) (rest : List Turn), v[1] = true → s.turns = .host (writeReq 0x10 v) :: rest →
      step s = .next t → irq t = false) ∧
    (∀ (s t : State) (w : Word) (rest : List Turn), busy s = false → s.turns = .host (writeReq 0x0C w) :: rest →
      step s = .next t → irq t = false) ∧
    ∀ (s t : State) (q : BusReq) (rest : List Turn), q.off ∉ [0x08#8, 0x0C#8, 0x10#8] → s.turns = .host q :: rest →
      step s = .next t → irq t = irq s

/-! ### The commands (files 41 to 44) -/

/-- R201: NOP. -/
def Obligations.NopCompletesAndDoesNothingElse : Prop :=
  encode .nop = 0x00000000 ∧ ∀ s : State, exec .nop s = .next { s with done := true, eng := .idle }

/-- R130, R131, R133: ENCODE, on the registers' numbers. -/
def Obligations.EncodeWritesTheCounter : Prop :=
  encode .encode = 0x00000001 ∧
    ∀ s : State,
      let T : Int := s.timeHi.toNat * 2 ^ 32 + s.timeLo.toNat
      let S : Int := if s.stepReg.toNat = 0 then 30 else s.stepReg.toNat
      let ofs : Int := if s.offsetReg.toNat < 2 ^ 31 then s.offsetReg.toNat else s.offsetReg.toNat - 2 ^ 32
      let c : Int := T / S + ofs
      (0 ≤ c ∧ c ≤ 2 ^ 64 - 1 →
        ∃ t, exec .encode s = .next t ∧ (t.counterHi.toNat * 2 ^ 32 + t.counterLo.toNat : Int) = c ∧
          t = { s with counterHi := t.counterHi, counterLo := t.counterLo, done := true, eng := .idle }) ∧
      (¬(0 ≤ c ∧ c ≤ 2 ^ 64 - 1) → exec .encode s = .next { s with err := true, errcode := 2, done := true, eng := .idle })

/-- R134 (the spec's own inference): the counter is monotone in the time, and so are both failures. -/
def Obligations.EncodeIsMonotoneInTime : Prop :=
  ∀ (s t t' : State) (hi lo : Word),
    let s' : State := { s with timeHi := hi, timeLo := lo }
    timeOf s ≤ timeOf s' → s.err = false → exec .encode s = .next t → exec .encode s' = .next t' →
      (t.err = false → t'.err = false → (counterOf t).toNat ≤ (counterOf t').toNat) ∧
        (t'.err = true → (timeOf s' / effectiveStep s' : Nat) + offsetOfCounter s' < 0 → t.err = true) ∧
        (t.err = true → 0 ≤ (timeOf s / effectiveStep s : Nat) + offsetOfCounter s → t'.err = true)

/-- R132: the big-endian multiplexer. -/
def Obligations.CounterMessageIsBigEndian : Prop :=
  (∀ C : BitVec 64, (be64 C).length = 8 ∧ beNat (be64 C) = C.toNat ∧
      ∀ i, i < 8 → byteAt (be64 C) i = C.extractLsb' (56 - 8 * i) 8) ∧
    ∀ s : State, be64 (counterOf s) = be32 s.counterHi ++ be32 s.counterLo

/-- R141: the padding of SHA-1 and its cut into blocks. -/
def Obligations.Sha1PaddingAndBlocks : Prop :=
  ∀ m : List Byte, 8 * m.length < 2 ^ 64 →
    (∃ z, sha1Pad m = m ++ [0x80#8] ++ List.replicate z 0#8 ++ be64 (BitVec.ofNat 64 (8 * m.length)) ∧
      (m.length + 1 + z + 8) % 64 = 0 ∧ ∀ z', z' < z → (m.length + 1 + z' + 8) % 64 ≠ 0) ∧
    beNat ((sha1Pad m).drop ((sha1Pad m).length - 8)) = 8 * m.length ∧
    let bs := blocksOf ((sha1Pad m).length / 64) (wordsOf (sha1Pad m))
    bs.flatten.flatMap be32 = sha1Pad m ∧ ∀ b ∈ bs, b.length = 16

/-- R145: the message schedule of a 64-byte block. -/
def Obligations.MessageScheduleRecurrence : Prop :=
  ∀ B : List Byte, B.length = 64 →
    let W := schedule (wordsOf B)
    W.length = 80 ∧
      (∀ t, t < 16 → (W.getD t 0).toNat = (byteAt B (4 * t)).toNat * 2 ^ 24 + (byteAt B (4 * t + 1)).toNat * 2 ^ 16 +
        (byteAt B (4 * t + 2)).toNat * 2 ^ 8 + (byteAt B (4 * t + 3)).toNat) ∧
      ∀ t, 16 ≤ t → t < 80 →
        W.getD t 0 = (W.getD (t - 3) 0 ^^^ W.getD (t - 8) 0 ^^^ W.getD (t - 14) 0 ^^^ W.getD (t - 16) 0).rotateLeft 1

/-- R148: the key is the first LEN bytes of the key buffer, big-endian in the words. -/
def Obligations.KeyIsTheFirstLenBytes : Prop :=
  ∀ s : State, 1 ≤ s.keyLen.toNat → s.keyLen.toNat ≤ 64 →
    (keyBytes s).length = s.keyLen.toNat ∧
      ∀ k, k < s.keyLen.toNat →
        byteAt (keyBytes s) k = (s.key.toList.getD (k / 4) 0).extractLsb' (24 - 8 * (k % 4)) 8

/-- R40: key bytes past LEN take no part: two blocks whose key bytes below LEN agree complete every command alike. -/
def Obligations.KeyBytesPastLenAreIgnored : Prop :=
  ∀ (i : Instr) (s t : State) (key : Vector Word 16),
    (∀ k, k < s.keyLen.toNat → (s.key.toList.getD (k / 4) 0).extractLsb' (24 - 8 * (k % 4)) 8 =
      (key.toList.getD (k / 4) 0).extractLsb' (24 - 8 * (k % 4)) 8) →
    exec i s = .next t → ∃ key', exec i { s with key := key } = .next { t with key := key' } ∧ (i ≠ .clear → key' = key)

/-- R151 (the spec's own inference), R155: an HMAC is four compressions on blocks of fixed layout, and the digest
registers are the words of the last. -/
def Obligations.HmacIsFourCompressions : Prop :=
  ∀ s : State, 1 ≤ s.keyLen.toNat → s.keyLen.toNat ≤ 64 →
    let k0 := keyBytes s ++ List.replicate (64 - s.keyLen.toNat) 0#8
    let inner := compress (compress sha1Iv (wordsOf (k0.map (· ^^^ 0x36#8))))
      ([s.counterHi, s.counterLo, 0x80000000] ++ List.replicate 12 0 ++ [0x00000240])
    let outer := compress (compress sha1Iv (wordsOf (k0.map (· ^^^ 0x5C#8))))
      ([inner.a, inner.b, inner.c, inner.d, inner.e, 0x80000000] ++ List.replicate 9 0 ++ [0x000002A0])
    ∃ t, exec .hmac s = .next t ∧ t.digest.toList = [outer.a, outer.b, outer.c, outer.d, outer.e]

/-- R153: HMAC, with R154's check. -/
def Obligations.HmacWritesTheDigest : Prop :=
  encode .hmac = 0x00000002 ∧
    ∀ s : State,
      (1 ≤ s.keyLen.toNat ∧ s.keyLen.toNat ≤ 64 →
        ∃ t, exec .hmac s = .next t ∧ digestBytes t = hmacSha1 (keyBytes s) (be64 (counterOf s)) ∧
          t = { s with digest := t.digest, done := true, eng := .idle }) ∧
      (s.keyLen.toNat = 0 ∨ 64 < s.keyLen.toNat →
        exec .hmac s = .next { s with err := true, errcode := 3, done := true, eng := .idle })

/-- R180 to R186: TRUNC, on the digest's bytes. `L` is LEGACY_LEN: the number of decimal digits of t, six at most. -/
def Obligations.TruncWritesTheResults : Prop :=
  encode .trunc = 0x00000003 ∧
    ∀ s : State,
      let d (k : Nat) : Nat := ((s.digest.toList.getD (k / 4) 0).extractLsb' (24 - 8 * (k % 4)) 8).toNat
      let o := d 19 % 16
      let tv := (d o % 128) * 2 ^ 24 + d (o + 1) * 2 ^ 16 + d (o + 2) * 2 ^ 8 + d (o + 3)
      ∃ t, exec .trunc s = .next t ∧ t.trunc.toNat = tv ∧ t.code.toNat = tv % 1000000 ∧
        (∀ i, i < 6 → t.codeBcd.toNat / 16 ^ i % 16 = t.code.toNat / 10 ^ i % 10) ∧
        (let L := t.legacyLen.toNat
         1 ≤ L ∧ L ≤ 6 ∧ (L = 6 ↔ 100000 ≤ tv) ∧ (L < 6 → tv < 10 ^ L) ∧ (2 ≤ L → 10 ^ (L - 1) ≤ tv)) ∧
        t.tofs.toNat = o ∧ t.valid = true ∧
        t = { s with
          trunc := t.trunc
          code := t.code
          codeBcd := t.codeBcd
          legacyLen := t.legacyLen
          tofs := t.tofs
          valid := true
          done := true
          eng := .idle }

/-- R181 (its second form, the spec's own inference): t is 31 bits of the digest read as one big-endian number. -/
def Obligations.TruncatedValueIsASliceOfTheDigest : Prop :=
  ∀ (s t : State), exec .trunc s = .next t →
    t.trunc.toNat = beNat (digestBytes s) / 2 ^ (128 - 8 * (s.digest[4].toNat % 16)) % 2 ^ 31

/-- R187: HOTP. Its results are those that TRUNC gives for the digest it writes. -/
def Obligations.HotpWritesDigestAndResults : Prop :=
  encode .hotp = 0x00000004 ∧
    ∀ s : State,
      (1 ≤ s.keyLen.toNat ∧ s.keyLen.toNat ≤ 64 →
        ∃ t, exec .hotp s = .next t ∧ digestBytes t = hmacSha1 (keyBytes s) (be64 (counterOf s)) ∧
          exec .trunc { s with digest := t.digest } = .next t) ∧
      (s.keyLen.toNat = 0 ∨ 64 < s.keyLen.toNat →
        exec .hotp s = .next { s with err := true, errcode := 3, done := true, eng := .idle })

/-- R200, R229: TOTP. The counter error is checked first; the HMAC is of the counter just computed. -/
def Obligations.TotpWritesCounterDigestAndResults : Prop :=
  encode .totp = 0x00000005 ∧
    ∀ s : State,
      let c : Int := (timeOf s : Int) / effectiveStep s + offsetOfCounter s
      (¬(0 ≤ c ∧ c ≤ 2 ^ 64 - 1) →
        exec .totp s = .next { s with err := true, errcode := 2, done := true, eng := .idle }) ∧
      (0 ≤ c ∧ c ≤ 2 ^ 64 - 1 → s.keyLen.toNat = 0 ∨ 64 < s.keyLen.toNat →
        exec .totp s = .next { s with err := true, errcode := 3, done := true, eng := .idle }) ∧
      (0 ≤ c ∧ c ≤ 2 ^ 64 - 1 → 1 ≤ s.keyLen.toNat ∧ s.keyLen.toNat ≤ 64 →
        ∃ t, exec .totp s = .next t ∧ ((counterOf t).toNat : Int) = c ∧
          digestBytes t = hmacSha1 (keyBytes s) (be64 (counterOf t)) ∧
          exec .trunc { s with counterHi := t.counterHi, counterLo := t.counterLo, digest := t.digest } = .next t)

/-- R188 (the spec's own inference): HOTP is HMAC then TRUNC, through the commands' whole lives, but for LASTOP. -/
def Obligations.HotpEqualsHmacThenTrunc : Prop :=
  ∀ (s : State) (rest : List Turn), busy s = false → 1 ≤ s.keyLen.toNat → s.keyLen.toNat ≤ 64 →
    ∃ t, runSteps 2 { s with turns := .host (writeReq 0x0C 4) :: .engine :: rest } = .next t ∧ t.lastop = 4 ∧ t.done = true ∧
      runSteps 4 { s with
        turns := .host (writeReq 0x0C 2) :: .engine :: .host (writeReq 0x0C 3) :: .engine :: rest } =
        .next { t with lastop := 3 }

/-- R204 (the spec's own inference) where the key is legal too, and its second half: TOTP is ENCODE then HOTP but for
LASTOP; where ENCODE fails, TOTP fails as it does. The premise on the key is the model's (log entry 20). -/
def Obligations.TotpEqualsEncodeThenHotp : Prop :=
  ∀ (s t : State) (rest : List Turn), busy s = false →
    runSteps 2 { s with turns := .host (writeReq 0x0C 1) :: .engine :: rest } = .next t →
      (t.err = false → 1 ≤ s.keyLen.toNat → s.keyLen.toNat ≤ 64 →
        ∃ u, runSteps 2 { s with turns := .host (writeReq 0x0C 5) :: .engine :: rest } = .next u ∧ u.err = false ∧
          runSteps 4 { s with
            turns := .host (writeReq 0x0C 1) :: .engine :: .host (writeReq 0x0C 4) :: .engine :: rest } =
            .next { u with lastop := 4 }) ∧
      (t.err = true →
        runSteps 2 { s with turns := .host (writeReq 0x0C 5) :: .engine :: rest } = .next { t with lastop := 5 })

/-- R204 word for word, "For every register state where ENCODE succeeds", whatever the key. Expected to FAIL: with an
illegal key length ENCODE then HOTP leaves the new COUNTER, and TOTP does not (R117, R200, vector V-TO-7; log entry
20). -/
def Obligations.TotpEqualsEncodeThenHotpWhateverTheKey : Prop :=
  ∀ (s t : State) (rest : List Turn), busy s = false →
    runSteps 2 { s with turns := .host (writeReq 0x0C 1) :: .engine :: rest } = .next t → t.err = false →
      ∃ u, runSteps 2 { s with turns := .host (writeReq 0x0C 5) :: .engine :: rest } = .next u ∧
        runSteps 4 { s with
          turns := .host (writeReq 0x0C 1) :: .engine :: .host (writeReq 0x0C 4) :: .engine :: rest } =
          .next { u with lastop := 4 }

/-- R202: CLEAR: every register takes its reset value, but for CTRL and STATUS; nothing of the key is left. -/
def Obligations.ClearErasesKeyOperandsAndResults : Prop :=
  encode .clear = 0x0000000F ∧
    ∀ s : State, ∃ t, exec .clear s = .next t ∧ SameOperands State.reset t ∧ SameResults State.reset t ∧
      t = { State.reset with
        ie := s.ie
        done := true
        err := s.err
        wbusy := s.wbusy
        errcode := s.errcode
        lastop := s.lastop
        turns := s.turns
        resp := s.resp
        freeCount := s.freeCount }

/-- R203, R222: every reserved command, and every reserved word through its whole life. -/
def Obligations.ReservedCommandsCompleteWithIllegalCmd : Prop :=
  (∀ (i : Instr) (s : State),
      i ∈ [.reserved6, .reserved7, .reserved8, .reserved9, .reservedA, .reservedB, .reservedC, .reservedD, .reservedE] ∨
        (∃ rsv op, i = .illegalRsv rsv op) →
      exec i s = .next { s with err := true, errcode := 1, done := true, eng := .idle }) ∧
    ∀ (s : State) (w : Word) (rest : List Turn), busy s = false →
      w.toNat / 16 ≠ 0 ∨ 6 ≤ w.toNat % 16 ∧ w.toNat % 16 ≤ 14 →
      runSteps 2 { s with turns := .host (writeReq 0x0C w) :: .engine :: rest } =
        .next { s with
          eng := .idle
          lastop := w.extractLsb' 0 4
          done := true
          err := true
          errcode := 1
          turns := rest
          resp := some ⟨none, false⟩ }

/-! ### The whole machine -/

/-- The invariant of the block holds at reset. -/
def Obligations.InvariantHoldsAtReset : Prop := BlockInv State.reset

/-- Every step, of the host, of the engine or of reset, keeps the invariant of the block. -/
def Obligations.InvariantIsKeptByEveryStep : Prop := ∀ s t : State, BlockInv s → step s = .next t → BlockInv t

/-- 93_implementation_defined.md: "The block has no undefined, unpredictable or stuck behaviour": every step of every
state answers a next state. -/
def Obligations.EveryStepAnswersANextState : Prop := ∀ s : State, ∃ t, step s = .next t

/-- R49, R251: reset at any time, a command in progress or not, leaves the state of the reset table. -/
def Obligations.ResetRestoresTheResetTable : Prop :=
  ∀ (s : State) (inFlight : Option BusReq) (rest : List Turn), s.turns = .reset inFlight :: rest →
    ∃ t, step s = .next t ∧ t.eng = .idle ∧ t.ie = false ∧ statusWord t = 0 ∧ t.keyLen = 0 ∧
      t.stepReg = 0 ∧ effectiveStep t = 30 ∧ t.offsetReg = 0 ∧ t.timeLo = 0 ∧ t.timeHi = 0 ∧ t.counterLo = 0 ∧
      t.counterHi = 0 ∧ (∀ j : Fin 16, t.key[j] = 0) ∧ (∀ j : Fin 5, t.digest[j] = 0) ∧ t.trunc = 0 ∧ t.code = 0 ∧
      t.codeBcd = 0 ∧ codeInfoWord t = 0 ∧ irq t = false ∧ readReg .id t = 0x544F5450 ∧ readReg .version t = 0x00010000 ∧
      t.block = State.reset.block

/-- R240 (of an idle block): on its own it changes nothing. -/
def Obligations.IdleBlockChangesNothingOnItsOwn : Prop :=
  ∀ s : State, s.eng = .idle →
    (s.turns = [] → step s = .next s) ∧ ∀ rest, s.turns = .engine :: rest → step s = .next { s with turns := rest }

/-- R113 (the spec's own inference), R115: while a command is in progress no host transaction changes ENG, an operand
register or a result register. -/
def Obligations.RegistersAreStableWhileBusy : Prop :=
  ∀ (qs : List BusReq) (s : State) (rest : List Turn), busy s = true → s.turns = qs.map .host ++ rest →
    ∃ t, runSteps qs.length s = .next t ∧ t.eng = s.eng ∧ t.lastop = s.lastop ∧ SameOperands s t ∧ SameResults s t ∧
      t.turns = rest

/-- R118: after any finite number of host transactions a busy engine completes, and what it computes is a function of the
state of acceptance alone: the host's transactions meanwhile leave no trace in the operand and result registers, nor in
ERR and ERRCODE. That the engine moves when nothing is scheduled is the model's (log entry 2). -/
def Obligations.BusyCommandCompletesWhateverTheHostDoes : Prop :=
  ∀ (qs : List BusReq) (s : State) (i : Instr), i.WellFormed → s.eng = .busy (opField i) (isLegalCommand i) →
    s.err = false → s.errcode = 0 → s.turns = qs.map .host →
    ∃ t u, exec i s = .next u ∧ runSteps (qs.length + 1) s = .next t ∧ t.eng = .idle ∧ t.done = true ∧
      t.err = u.err ∧ t.errcode = u.errcode ∧ SameOperands u t ∧ SameResults u t

/-- R119: a transaction and a completion of one clock cycle stand in the schedule in this order: a STATUS write does not
clear the DONE of that completion, and a write of any locked register is dropped and reported. What the two steps leave is
the completion, on the old operands, of the command that ENG holds. That order of the schedule is the model's (log entry
2). -/
def Obligations.SameCycleTransactionComesFirst : Prop :=
  ∀ (s : State) (op : BitVec 4) (ok : Bool) (off : BitVec 8) (v : Word) (rest : List Turn), s.eng = .busy op ok →
    (s.turns = .host (writeReq 0x10 v) :: .engine :: rest →
      ∃ t, runSteps 2 s = .next t ∧ t.done = true ∧ t.eng = .idle ∧
        exec (commandOf op ok) { s with
          done := if v[1] then false else s.done
          err := if v[2] then false else s.err
          errcode := if v[2] then 0 else s.errcode
          wbusy := if v[3] then false else s.wbusy
          turns := rest
          resp := some ⟨none, false⟩ } = .next t) ∧
    (off.toNat % 4 = 0 → off.toNat = 0x0C ∨ 0x14 ≤ off.toNat ∧ off.toNat ≤ 0x2C ∨ 0x40 ≤ off.toNat ∧ off.toNat ≤ 0x90 →
      s.turns = .host (writeReq off v) :: .engine :: rest →
      ∃ t, runSteps 2 s = .next t ∧ t.done = true ∧ t.wbusy = true ∧
        exec (commandOf op ok) { s with wbusy := true, turns := rest, resp := some ⟨none, false⟩ } = .next t)

/-- R97, R81: WAIT from a busy block. The poll as a schedule entry is the model's (log entry 21); after it the last
response is a STATUS word with BUSY 0 and DONE 1, and the command has completed. -/
def Obligations.WaitEndsWithDone : Prop :=
  ∀ (s : State) (rest : List Turn), busy s = true → s.turns = Stmt.turns .wait ++ rest →
    ∃ t v, runSteps 3 s = .next t ∧ t.turns = rest ∧ t.resp = some ⟨some v, false⟩ ∧ v &&& 3 = 2 ∧ t.eng = .idle

/-- R97 (LDKEY), R148: from an idle block it loads the key, and leaves the key words it does not write. -/
def Obligations.LdkeyLoadsTheKey : Prop :=
  ∀ (s : State) (k : List Byte), busy s = false → k.length ≤ 64 → s.turns = Stmt.turns (.ldkey k) →
    ∃ t, runSteps s.turns.length s = .next t ∧ keyBytes t = k ∧ t.keyLen.toNat = k.length ∧ t.turns = [] ∧
      (∀ j : Fin 16, k.length ≤ 4 * j.val → t.key[j] = s.key[j]) ∧
      t = { s with key := t.key, keyLen := t.keyLen, turns := [], resp := some ⟨none, false⟩ }

/-- R184, R206: in a state of the invariant that holds a code, the legacy string is the last six characters of the decimal
form of the truncated value, without padding. -/
def Obligations.LegacyStringIsTheLastSixCharacters : Prop :=
  ∀ s : State, BlockInv s → s.valid = true →
    legacyString s = (Nat.toDigits 10 s.trunc.toNat).drop ((Nat.toDigits 10 s.trunc.toNat).length - 6)

/-- R205: in a state of the invariant, the zero-padded string is six decimal digits, and they are those of the code. -/
def Obligations.CodeStringIsSixPaddedDigits : Prop :=
  ∀ s : State, BlockInv s →
    (codeString s).length = 6 ∧ (∀ c ∈ codeString s, c.isDigit = true) ∧
      (codeString s).foldl (fun n c => n * 10 + (c.toNat - '0'.toNat)) 0 = s.trunc.toNat % 1000000

/-- R207: the host's `totp` against an idle block gives, for a secret of any length but 0, the code of counter
floor(now / 30), in either form of the string (log entry 28); with no secret it gives INVALID_KEY. -/
def Obligations.HostTotpReturnsTheCode : Prop :=
  ∀ (form : CodeForm) (k : List Byte) (now : BitVec 64) (s : State), busy s = false →
    (1 ≤ k.length → hostTotp form k now s = some (.ok (expectedCode form k (now.toNat / 30)))) ∧
      (k = [] → hostTotp form k now s = some (.error .invalidKey))

/-- R208: the host's `verify` against an idle block is true exactly of the codes of the three counters around the time, of
two of them in the first step; it is no error where none matches, and INVALID_KEY where there is no secret. Which string is
compared is the host's (log entry 28); that INVALID_KEY is passed on is the model's reading (log entry 27). -/
def Obligations.HostVerifyAcceptsTheWindow : Prop :=
  ∀ (form : CodeForm) (k : List Byte) (candidate : List Char) (now : BitVec 64) (s : State), busy s = false →
    let c := now.toNat / 30
    (1 ≤ k.length → ∃ b, hostVerify form k candidate now s = some (.ok b) ∧
      (b = true ↔ 1 ≤ c ∧ candidate = expectedCode form k (c - 1) ∨ candidate = expectedCode form k c ∨
        candidate = expectedCode form k (c + 1))) ∧
      (k = [] → hostVerify form k candidate now s = some (.error .invalidKey))
end

