-- ==== Sys2Proof/Laws/Bytes.lean ====
section
/-! SUPPORT. Byte strings and their lengths. -/

namespace Sys2Proof.Machine

@[simp] theorem be32_length (w : Word) : (be32 w).length = 4 := rfl

@[simp] theorem be64_length (v : BitVec 64) : (be64 v).length = 8 := rfl

/-- Packing the bytes of a word gives it back. -/
theorem pack32_be32 (w : Word) :
    pack32 (w.extractLsb' 24 8) (w.extractLsb' 16 8) (w.extractLsb' 8 8) (w.extractLsb' 0 8) = w := by
  unfold pack32
  ext i hi
  simp only [BitVec.getElem_append, BitVec.getElem_extractLsb']
  split <;> rename_i h
  · rw [show 0 + i = i by omega]; exact BitVec.getLsbD_eq_getElem hi
  · split
    · rw [show 8 + (i - 8) = i by omega]; exact BitVec.getLsbD_eq_getElem hi
    · split
      · rw [show 16 + (i - 8 - 8) = i by omega]; exact BitVec.getLsbD_eq_getElem hi
      · rw [show 24 + (i - 8 - 8 - 8) = i by omega]; exact BitVec.getLsbD_eq_getElem hi

/-- The bytes of a packed word are the bytes it was packed from. -/
theorem be32_pack32 (b0 b1 b2 b3 : Byte) : be32 (pack32 b0 b1 b2 b3) = [b0, b1, b2, b3] := by
  simp only [be32, pack32, List.cons.injEq, and_true]
  refine ⟨?_, ?_, ?_, ?_⟩ <;>
    · ext i hi
      simp only [BitVec.getElem_extractLsb', BitVec.getLsbD_append]
      simp (disch := omega) [BitVec.getLsbD_eq_getElem, hi]
      try grind

theorem flatMap_be32_length (ws : List Word) : (ws.flatMap be32).length = 4 * ws.length := by
  induction ws with
  | nil => rfl
  | cons w ws ih => simp [List.flatMap_cons, ih]; omega

/-- Words as bytes and back. -/
theorem wordsOf_flatMap_be32 (ws : List Word) : wordsOf (ws.flatMap be32) = ws := by
  induction ws with
  | nil => rfl
  | cons w ws ih => simp [List.flatMap_cons, be32, wordsOf, pack32_be32, ih]

@[simp] theorem digestBytes_length (s : State) : (digestBytes s).length = 20 := by
  simp [digestBytes]

theorem keyBytes_length (s : State) : (keyBytes s).length = min s.keyLen.toNat 64 := by
  simp [keyBytes]

@[simp] theorem Chain.bytes_length (h : Chain) : h.bytes.length = 20 := rfl

@[simp] theorem sha1_length (m : List Byte) : (sha1 m).length = 20 := rfl

@[simp] theorem hmacSha1_length (k m : List Byte) : (hmacSha1 k m).length = 20 := rfl

@[simp] theorem xorByte_length (b : Byte) (k : List Byte) : (xorByte b k).length = k.length := by simp [xorByte]

/-- A key of at most 64 bytes is padded to one block (42_hmac_sha1.md R149). -/
theorem padKey_length {k : List Byte} (h : k.length ≤ 64) : (padKey k).length = 64 := by
  simp [padKey]; omega

/-! ### Numbers of words and byte strings -/

/-- The number of a concatenation. -/
theorem toNat_append_add {m n : Nat} (x : BitVec m) (y : BitVec n) : (x ++ y).toNat = x.toNat * 2 ^ n + y.toNat := by
  rw [BitVec.toNat_append, ← Nat.shiftLeft_add_eq_or_of_lt y.isLt, Nat.shiftLeft_eq]

/-- The number of a packed word. -/
theorem pack32_toNat (a b c d : Byte) : (pack32 a b c d).toNat = a.toNat * 2^24 + b.toNat * 2^16 + c.toNat * 2^8 +
    d.toNat := by
  simp only [pack32, toNat_append_add]; omega

/-- A string of 4n bytes has n words. -/
theorem wordsOf_length : ∀ (n : Nat) (l : List Byte), l.length = 4 * n → (wordsOf l).length = n
  | 0, l, h => by have : l = [] := List.eq_nil_of_length_eq_zero (by omega); subst this; rfl
  | n+1, b0 :: b1 :: b2 :: b3 :: r, h => by
    simp only [wordsOf, List.length_cons] at *; rw [wordsOf_length n r (by omega)]
  | n+1, [], h => by simp at h
  | n+1, [_], h => by simp at h; omega
  | n+1, [_,_], h => by simp at h; omega
  | n+1, [_,_,_], h => by simp at h; omega

/-- Bytes as words and back. -/
theorem flatMap_wordsOf : ∀ (n : Nat) (l : List Byte), l.length = 4 * n → (wordsOf l).flatMap be32 = l
  | 0, l, h => by have : l = [] := List.eq_nil_of_length_eq_zero (by omega); subst this; rfl
  | n+1, b0 :: b1 :: b2 :: b3 :: r, h => by
    simp only [wordsOf, List.flatMap_cons, be32_pack32]; rw [flatMap_wordsOf n r (by simp at h; omega)]; rfl
  | n+1, [], h => by simp at h
  | n+1, [_], h => by simp at h; omega
  | n+1, [_,_], h => by simp at h; omega
  | n+1, [_,_,_], h => by simp at h; omega

/-- Word t of a byte string is its bytes 4t to 4t + 3. -/
theorem wordsOf_getD : ∀ (l : List Byte) (t : Nat), 4 * t + 4 ≤ l.length → (wordsOf l).getD t 0 = pack32 (byteAt l
    (4*t)) (byteAt l (4*t+1)) (byteAt l (4*t+2)) (byteAt l (4*t+3))
  | b0 :: b1 :: b2 :: b3 :: r, 0, h => rfl
  | b0 :: b1 :: b2 :: b3 :: r, t+1, h => by
    have := wordsOf_getD r t (by simp at h; omega)
    simp only [wordsOf, List.getD_cons_succ, this, byteAt, show 4 * (t+1) = 4 * t + 1 + 1 + 1 + 1 by omega, show 4 *
        t + 1 + 1 + 1 + 1 + 1 = (4 * t + 1) + 1 + 1 + 1 + 1 by omega, show 4 * t + 1 + 1 + 1 + 1 + 2 = (4 * t + 2) +
        1 + 1 + 1 + 1 by omega, show 4 * t + 1 + 1 + 1 + 1 + 3 = (4 * t + 3) + 1 + 1 + 1 + 1 by omega]
  | [], t, h => by simp at h
  | [_], t, h => by simp at h
  | [_,_], t, h => by simp at h
  | [_,_,_], t, h => by simp at h

/-- Whole words in front split off. -/
theorem wordsOf_append : ∀ (n : Nat) (l r : List Byte), l.length = 4 * n → wordsOf (l ++ r) = wordsOf l ++ wordsOf r
  | 0, l, r, h => by have : l = [] := List.eq_nil_of_length_eq_zero (by simpa using h); subst this; rfl
  | n+1, a::b::c::d::l, r, h => by
    simp only [List.cons_append, wordsOf]; rw [wordsOf_append n l r (by simp at h; omega)]
  | n+1, [], r, h => by simp at h
  | n+1, [_], r, h => by simp at h; omega
  | n+1, [_,_], r, h => by simp at h; omega
  | n+1, [_,_,_], r, h => by simp at h; omega

/-- Byte k of a list of words is byte k % 4, from the top, of word k / 4. -/
theorem flatMap_getD : ∀ (ws : List Word) (k : Nat), (ws.flatMap be32).getD k 0 = (ws.getD (k/4) 0).extractLsb' (24
    - 8 * (k % 4)) 8
  | [], k => by simp
  | w :: ws, k => by
    match k with
    | 0 | 1 | 2 | 3 => simp [List.flatMap_cons, be32]
    | k+4 => 
      have := flatMap_getD ws k
      simp only [List.flatMap_cons, be32, List.cons_append, List.nil_append, List.getD_cons_succ, this]
      rw [show (k+4)/4 = k/4+1 by omega, show (k+4)%4 = k%4 by omega, List.getD_cons_succ]

/-- Byte k of the key, below LEN, is a byte of the key buffer. -/
theorem keyByte (s : State) (k) (h : k < s.keyLen.toNat) : byteAt (keyBytes s) k = (s.key.toList.getD (k / 4)
    0).extractLsb' (24 - 8 * (k % 4)) 8 := by
  rw [← flatMap_getD]
  simp only [byteAt, keyBytes, List.getD_eq_getElem?_getD, List.getElem?_take, if_pos h]

/-- The length of the padded message. -/
theorem pad_length (m : List Byte) : (sha1Pad m).length = m.length + 1 + zeroPadding m.length + 8 := by
  simp [sha1Pad]; omega

/-- The digest registers hold the digest that was put there. -/
theorem digest_put (d : List Byte) (h : d.length = 20) (s : State) : digestBytes (putDigest d s) = d := by
  obtain ⟨d0,d1,d2,d3,d4,d5,d6,d7,d8,d9,d10,d11,d12,d13,d14,d15,d16,d17,d18,d19, rfl⟩ : ∃ d0 d1 d2 d3 d4 d5 d6 d7 d8
      d9 d10 d11 d12 d13 d14 d15 d16 d17 d18 d19, d =
      [d0,d1,d2,d3,d4,d5,d6,d7,d8,d9,d10,d11,d12,d13,d14,d15,d16,d17,d18,d19] := by
    rcases d with _ | ⟨d0, _ | ⟨d1, _ | ⟨d2, _ | ⟨d3, _ | ⟨d4, _ | ⟨d5, _ | ⟨d6, _ | ⟨d7, _ | ⟨d8, _ | ⟨d9, _ |
        ⟨d10, _ | ⟨d11, _ | ⟨d12, _ | ⟨d13, _ | ⟨d14, _ | ⟨d15, _ | ⟨d16, _ | ⟨d17, _ | ⟨d18, _ | ⟨d19, _ | ⟨d20,
        d⟩⟩⟩⟩⟩⟩⟩⟩⟩⟩⟩⟩⟩⟩⟩⟩⟩⟩⟩⟩⟩ <;> simp at h
    exact ⟨_,_,_,_,_,_,_,_,_,_,_,_,_,_,_,_,_,_,_,_, rfl⟩
  have : (putDigest [d0,d1,d2,d3,d4,d5,d6,d7,d8,d9,d10,d11,d12,d13,d14,d15,d16,d17,d18,d19] s).digest.toList =
      [pack32 d0 d1 d2 d3, pack32 d4 d5 d6 d7, pack32 d8 d9 d10 d11, pack32 d12 d13 d14 d15, pack32 d16 d17 d18 d19]
      := by
    simp only [putDigest, Vector.toList_ofFn]; rfl
  simp only [digestBytes, this, List.flatMap_cons, be32_pack32, List.flatMap_nil]; rfl

/-! ### Truncation -/

/-- The truncation offset as a number. -/
theorem off_toNat (d : List Byte) : (truncOffset d).toNat = (byteAt d 19).toNat % 16 := by
  have : ∀ b : Byte, ((b &&& 0x0F).extractLsb' 0 4).toNat = b.toNat % 16 := by decide
  exact this _

/-- A disjoint `|||` is a sum. -/
theorem or_add (a b n : Nat) (h : b < 2^n) : a <<< n ||| b = a * 2^n + b := by
  rw [← Nat.shiftLeft_add_eq_or_of_lt h, Nat.shiftLeft_eq]

/-- The truncated value as a sum. -/
theorem tv_eq (d : List Byte) : truncValue d = ((byteAt d (truncOffset d).toNat).toNat % 128) * 2^24 + (byteAt d
    ((truncOffset d).toNat+1)).toNat * 2^16 + (byteAt d ((truncOffset d).toNat+2)).toNat * 2^8 + (byteAt d
    ((truncOffset d).toNat+3)).toNat := by
  simp only [truncValue]
  generalize byteAt d (truncOffset d).toNat = b0
  generalize byteAt d ((truncOffset d).toNat+1) = b1
  generalize byteAt d ((truncOffset d).toNat+2) = b2
  generalize byteAt d ((truncOffset d).toNat+3) = b3
  have := b0.isLt; have := b1.isLt; have := b2.isLt; have := b3.isLt
  rw [show b0.toNat &&& 0x7F = b0.toNat % 128 from Nat.and_two_pow_sub_one_eq_mod _ 7]
  have e1 : (b0.toNat % 128) <<< 24 ||| b1.toNat <<< 16 = (b0.toNat % 128 * 2^8 + b1.toNat) <<< 16 := by
    rw [or_add _ _ 24 (by rw [Nat.shiftLeft_eq]; omega), Nat.shiftLeft_eq, Nat.shiftLeft_eq]; omega
  have e2 : (b0.toNat % 128 * 2^8 + b1.toNat) <<< 16 ||| b2.toNat <<< 8 = ((b0.toNat % 128 * 2^8 + b1.toNat) * 2^8 +
      b2.toNat) <<< 8 := by
    rw [or_add _ _ 16 (by rw [Nat.shiftLeft_eq]; omega), Nat.shiftLeft_eq, Nat.shiftLeft_eq]; omega
  rw [e1, e2, or_add _ _ 8 (by omega)]; omega

/-- The truncated value has 31 bits. -/
theorem tv_lt (d : List Byte) : truncValue d < 2^31 := by
  rw [tv_eq]
  have := (byteAt d ((truncOffset d).toNat+1)).isLt; have := (byteAt d ((truncOffset d).toNat+2)).isLt; have :=
      (byteAt d ((truncOffset d).toNat+3)).isLt
  omega

/-- Each BCD digit is the decimal digit. -/
theorem bcd_digit (v i : Nat) (hi : i < 6) : bcdOf v / 16^i % 16 = v / 10^i % 10 := by
  show _ = digit v i
  have hd : ∀ j, digit v j < 10 := fun j => Nat.mod_lt _ (by omega)
  have h0 := hd 0; have h1 := hd 1; have h2 := hd 2; have h3 := hd 3; have h4 := hd 4; have h5 := hd 5
  have : i = 0 ∨ i = 1 ∨ i = 2 ∨ i = 3 ∨ i = 4 ∨ i = 5 := by omega
  unfold bcdOf
  rcases this with rfl | rfl | rfl | rfl | rfl | rfl <;> generalize digit v 0 = a0 at * <;> generalize digit v 1 =
      a1 at * <;> generalize digit v 2 = a2 at * <;> generalize digit v 3 = a3 at * <;> generalize digit v 4 = a4 at
      * <;> generalize digit v 5 = a5 at * <;> simp only [Nat.reducePow, Nat.pow_zero, Nat.div_one] <;> clear hd <;>
      omega

/-- The BCD word has 24 bits. -/
theorem bcd_lt (v : Nat) : bcdOf v < 2^24 := by
  simp only [bcdOf, digit]; omega

/-- `countDigits` counts decimal digits, whatever fuel is enough. -/
theorem count_spec : ∀ (f t : Nat), t ≤ f → 1 ≤ countDigits f t ∧ t < 10 ^ countDigits f t ∧ (2 ≤ countDigits f t →
    10 ^ (countDigits f t - 1) ≤ t)
  | 0, t, h => by simp [countDigits]; omega
  | f+1, t, h => by
    unfold countDigits
    split
    · simp; omega
    · obtain ⟨h1, h2, h3⟩ := count_spec f (t/10) (by omega)
      refine ⟨by omega, ?_, fun _ => ?_⟩
      · rw [pow_succ]; omega
      · simp only [Nat.add_sub_cancel]
        by_cases h4 : 2 ≤ countDigits f (t/10)
        · have := h3 h4
          have e : 10 ^ countDigits f (t/10) = 10 ^ (countDigits f (t/10) - 1) * 10 := by
            rw [← pow_succ]; congr 1; omega
          rw [e]; omega
        · have : countDigits f (t/10) = 1 := by omega
          rw [this]; omega

/-- `ndigits` counts decimal digits. -/
theorem ndigits_spec (t : Nat) : 1 ≤ ndigits t ∧ t < 10 ^ ndigits t ∧ (2 ≤ ndigits t → 10 ^ (ndigits t - 1) ≤ t) :=
    count_spec t t (Nat.le_refl t)

/-- The legacy length is the number of digits, six at most. -/
theorem legacy_spec (t : Nat) : let L := legacyLength t; 1 ≤ L ∧ L ≤ 6 ∧ (L = 6 ↔ 100000 ≤ t) ∧ (L < 6 → t < 10 ^ L)
    ∧ (2 ≤ L → 10 ^ (L - 1) ≤ t) := by
  intro L
  obtain ⟨h1, h2, h3⟩ := ndigits_spec t
  have hL : L = min 6 (ndigits t) := rfl
  rcases Nat.lt_or_ge (ndigits t) 6 with h | h
  · have : L = ndigits t := by omega
    rw [this]
    refine ⟨h1, by omega, ⟨fun h => by omega, fun h5 => ?_⟩, fun _ => h2, h3⟩
    have : 10 ^ ndigits t ≤ 10 ^ 5 := Nat.pow_le_pow_right (by omega) (by omega)
    omega
  · have : L = 6 := by omega
    rw [this]
    have h4 := h3 (by omega)
    have : 10 ^ 5 ≤ 10 ^ (ndigits t - 1) := Nat.pow_le_pow_right (by omega) (by omega)
    refine ⟨by omega, by omega, ⟨fun _ => by omega, fun _ => rfl⟩, by omega, fun _ => by omega⟩

end Sys2Proof.Machine
end

