-- ==== Sys2Proof/Laws/State.lean ====
section
/-! SUPPORT. One lemma per field per named update of State, each true by rfl, so that no proof unfolds an update. -/

namespace Sys2Proof.Machine

/-! ### accept -/

@[simp] theorem accept_eng (w : Word) (s : State) : (accept w s).eng = .busy (wordOp w) (legal w) := rfl
@[simp] theorem accept_ie (w : Word) (s : State) : (accept w s).ie = s.ie := rfl
@[simp] theorem accept_done (w : Word) (s : State) : (accept w s).done = false := rfl
@[simp] theorem accept_err (w : Word) (s : State) : (accept w s).err = false := rfl
@[simp] theorem accept_wbusy (w : Word) (s : State) : (accept w s).wbusy = s.wbusy := rfl
@[simp] theorem accept_errcode (w : Word) (s : State) : (accept w s).errcode = 0 := rfl
@[simp] theorem accept_lastop (w : Word) (s : State) : (accept w s).lastop = wordOp w := rfl
@[simp] theorem accept_keyLen (w : Word) (s : State) : (accept w s).keyLen = s.keyLen := rfl
@[simp] theorem accept_stepReg (w : Word) (s : State) : (accept w s).stepReg = s.stepReg := rfl
@[simp] theorem accept_offsetReg (w : Word) (s : State) : (accept w s).offsetReg = s.offsetReg := rfl
@[simp] theorem accept_timeLo (w : Word) (s : State) : (accept w s).timeLo = s.timeLo := rfl
@[simp] theorem accept_timeHi (w : Word) (s : State) : (accept w s).timeHi = s.timeHi := rfl
@[simp] theorem accept_counterLo (w : Word) (s : State) : (accept w s).counterLo = s.counterLo := rfl
@[simp] theorem accept_counterHi (w : Word) (s : State) : (accept w s).counterHi = s.counterHi := rfl
@[simp] theorem accept_key (w : Word) (s : State) : (accept w s).key = s.key := rfl
@[simp] theorem accept_digest (w : Word) (s : State) : (accept w s).digest = s.digest := rfl
@[simp] theorem accept_trunc (w : Word) (s : State) : (accept w s).trunc = s.trunc := rfl
@[simp] theorem accept_code (w : Word) (s : State) : (accept w s).code = s.code := rfl
@[simp] theorem accept_codeBcd (w : Word) (s : State) : (accept w s).codeBcd = s.codeBcd := rfl
@[simp] theorem accept_legacyLen (w : Word) (s : State) : (accept w s).legacyLen = s.legacyLen := rfl
@[simp] theorem accept_tofs (w : Word) (s : State) : (accept w s).tofs = s.tofs := rfl
@[simp] theorem accept_valid (w : Word) (s : State) : (accept w s).valid = s.valid := rfl
@[simp] theorem accept_turns (w : Word) (s : State) : (accept w s).turns = s.turns := rfl
@[simp] theorem accept_resp (w : Word) (s : State) : (accept w s).resp = s.resp := rfl
@[simp] theorem accept_freeCount (w : Word) (s : State) : (accept w s).freeCount = s.freeCount := rfl

/-! ### finish -/

@[simp] theorem finish_eng (s : State) : (finish s).eng = .idle := rfl
@[simp] theorem finish_ie (s : State) : (finish s).ie = s.ie := rfl
@[simp] theorem finish_done (s : State) : (finish s).done = true := rfl
@[simp] theorem finish_err (s : State) : (finish s).err = s.err := rfl
@[simp] theorem finish_wbusy (s : State) : (finish s).wbusy = s.wbusy := rfl
@[simp] theorem finish_errcode (s : State) : (finish s).errcode = s.errcode := rfl
@[simp] theorem finish_lastop (s : State) : (finish s).lastop = s.lastop := rfl
@[simp] theorem finish_keyLen (s : State) : (finish s).keyLen = s.keyLen := rfl
@[simp] theorem finish_stepReg (s : State) : (finish s).stepReg = s.stepReg := rfl
@[simp] theorem finish_offsetReg (s : State) : (finish s).offsetReg = s.offsetReg := rfl
@[simp] theorem finish_timeLo (s : State) : (finish s).timeLo = s.timeLo := rfl
@[simp] theorem finish_timeHi (s : State) : (finish s).timeHi = s.timeHi := rfl
@[simp] theorem finish_counterLo (s : State) : (finish s).counterLo = s.counterLo := rfl
@[simp] theorem finish_counterHi (s : State) : (finish s).counterHi = s.counterHi := rfl
@[simp] theorem finish_key (s : State) : (finish s).key = s.key := rfl
@[simp] theorem finish_digest (s : State) : (finish s).digest = s.digest := rfl
@[simp] theorem finish_trunc (s : State) : (finish s).trunc = s.trunc := rfl
@[simp] theorem finish_code (s : State) : (finish s).code = s.code := rfl
@[simp] theorem finish_codeBcd (s : State) : (finish s).codeBcd = s.codeBcd := rfl
@[simp] theorem finish_legacyLen (s : State) : (finish s).legacyLen = s.legacyLen := rfl
@[simp] theorem finish_tofs (s : State) : (finish s).tofs = s.tofs := rfl
@[simp] theorem finish_valid (s : State) : (finish s).valid = s.valid := rfl
@[simp] theorem finish_turns (s : State) : (finish s).turns = s.turns := rfl
@[simp] theorem finish_resp (s : State) : (finish s).resp = s.resp := rfl
@[simp] theorem finish_freeCount (s : State) : (finish s).freeCount = s.freeCount := rfl

/-! ### reportError -/

@[simp] theorem reportError_eng (e : CmdError) (s : State) : (reportError e s).eng = s.eng := rfl
@[simp] theorem reportError_ie (e : CmdError) (s : State) : (reportError e s).ie = s.ie := rfl
@[simp] theorem reportError_done (e : CmdError) (s : State) : (reportError e s).done = s.done := rfl
@[simp] theorem reportError_err (e : CmdError) (s : State) : (reportError e s).err = true := rfl
@[simp] theorem reportError_wbusy (e : CmdError) (s : State) : (reportError e s).wbusy = s.wbusy := rfl
@[simp] theorem reportError_errcode (e : CmdError) (s : State) : (reportError e s).errcode = e.number := rfl
@[simp] theorem reportError_lastop (e : CmdError) (s : State) : (reportError e s).lastop = s.lastop := rfl
@[simp] theorem reportError_keyLen (e : CmdError) (s : State) : (reportError e s).keyLen = s.keyLen := rfl
@[simp] theorem reportError_stepReg (e : CmdError) (s : State) : (reportError e s).stepReg = s.stepReg := rfl
@[simp] theorem reportError_offsetReg (e : CmdError) (s : State) : (reportError e s).offsetReg = s.offsetReg := rfl
@[simp] theorem reportError_timeLo (e : CmdError) (s : State) : (reportError e s).timeLo = s.timeLo := rfl
@[simp] theorem reportError_timeHi (e : CmdError) (s : State) : (reportError e s).timeHi = s.timeHi := rfl
@[simp] theorem reportError_counterLo (e : CmdError) (s : State) : (reportError e s).counterLo = s.counterLo := rfl
@[simp] theorem reportError_counterHi (e : CmdError) (s : State) : (reportError e s).counterHi = s.counterHi := rfl
@[simp] theorem reportError_key (e : CmdError) (s : State) : (reportError e s).key = s.key := rfl
@[simp] theorem reportError_digest (e : CmdError) (s : State) : (reportError e s).digest = s.digest := rfl
@[simp] theorem reportError_trunc (e : CmdError) (s : State) : (reportError e s).trunc = s.trunc := rfl
@[simp] theorem reportError_code (e : CmdError) (s : State) : (reportError e s).code = s.code := rfl
@[simp] theorem reportError_codeBcd (e : CmdError) (s : State) : (reportError e s).codeBcd = s.codeBcd := rfl
@[simp] theorem reportError_legacyLen (e : CmdError) (s : State) : (reportError e s).legacyLen = s.legacyLen := rfl
@[simp] theorem reportError_tofs (e : CmdError) (s : State) : (reportError e s).tofs = s.tofs := rfl
@[simp] theorem reportError_valid (e : CmdError) (s : State) : (reportError e s).valid = s.valid := rfl
@[simp] theorem reportError_turns (e : CmdError) (s : State) : (reportError e s).turns = s.turns := rfl
@[simp] theorem reportError_resp (e : CmdError) (s : State) : (reportError e s).resp = s.resp := rfl
@[simp] theorem reportError_freeCount (e : CmdError) (s : State) : (reportError e s).freeCount = s.freeCount := rfl

/-! ### clearStatus -/

@[simp] theorem clearStatus_eng (v : Word) (s : State) : (clearStatus v s).eng = s.eng := rfl
@[simp] theorem clearStatus_ie (v : Word) (s : State) : (clearStatus v s).ie = s.ie := rfl
@[simp] theorem clearStatus_done (v : Word) (s : State) : (clearStatus v s).done = (s.done && !v.getLsbD 1) := rfl
@[simp] theorem clearStatus_err (v : Word) (s : State) : (clearStatus v s).err = (s.err && !v.getLsbD 2) := rfl
@[simp] theorem clearStatus_wbusy (v : Word) (s : State) : (clearStatus v s).wbusy = (s.wbusy && !v.getLsbD 3) := rfl
@[simp] theorem clearStatus_errcode (v : Word) (s : State) : (clearStatus v s).errcode = (if v.getLsbD 2 then 0 else s.errcode) := rfl
@[simp] theorem clearStatus_lastop (v : Word) (s : State) : (clearStatus v s).lastop = s.lastop := rfl
@[simp] theorem clearStatus_keyLen (v : Word) (s : State) : (clearStatus v s).keyLen = s.keyLen := rfl
@[simp] theorem clearStatus_stepReg (v : Word) (s : State) : (clearStatus v s).stepReg = s.stepReg := rfl
@[simp] theorem clearStatus_offsetReg (v : Word) (s : State) : (clearStatus v s).offsetReg = s.offsetReg := rfl
@[simp] theorem clearStatus_timeLo (v : Word) (s : State) : (clearStatus v s).timeLo = s.timeLo := rfl
@[simp] theorem clearStatus_timeHi (v : Word) (s : State) : (clearStatus v s).timeHi = s.timeHi := rfl
@[simp] theorem clearStatus_counterLo (v : Word) (s : State) : (clearStatus v s).counterLo = s.counterLo := rfl
@[simp] theorem clearStatus_counterHi (v : Word) (s : State) : (clearStatus v s).counterHi = s.counterHi := rfl
@[simp] theorem clearStatus_key (v : Word) (s : State) : (clearStatus v s).key = s.key := rfl
@[simp] theorem clearStatus_digest (v : Word) (s : State) : (clearStatus v s).digest = s.digest := rfl
@[simp] theorem clearStatus_trunc (v : Word) (s : State) : (clearStatus v s).trunc = s.trunc := rfl
@[simp] theorem clearStatus_code (v : Word) (s : State) : (clearStatus v s).code = s.code := rfl
@[simp] theorem clearStatus_codeBcd (v : Word) (s : State) : (clearStatus v s).codeBcd = s.codeBcd := rfl
@[simp] theorem clearStatus_legacyLen (v : Word) (s : State) : (clearStatus v s).legacyLen = s.legacyLen := rfl
@[simp] theorem clearStatus_tofs (v : Word) (s : State) : (clearStatus v s).tofs = s.tofs := rfl
@[simp] theorem clearStatus_valid (v : Word) (s : State) : (clearStatus v s).valid = s.valid := rfl
@[simp] theorem clearStatus_turns (v : Word) (s : State) : (clearStatus v s).turns = s.turns := rfl
@[simp] theorem clearStatus_resp (v : Word) (s : State) : (clearStatus v s).resp = s.resp := rfl
@[simp] theorem clearStatus_freeCount (v : Word) (s : State) : (clearStatus v s).freeCount = s.freeCount := rfl

/-! ### putCounter -/

@[simp] theorem putCounter_eng (c : BitVec 64) (s : State) : (putCounter c s).eng = s.eng := rfl
@[simp] theorem putCounter_ie (c : BitVec 64) (s : State) : (putCounter c s).ie = s.ie := rfl
@[simp] theorem putCounter_done (c : BitVec 64) (s : State) : (putCounter c s).done = s.done := rfl
@[simp] theorem putCounter_err (c : BitVec 64) (s : State) : (putCounter c s).err = s.err := rfl
@[simp] theorem putCounter_wbusy (c : BitVec 64) (s : State) : (putCounter c s).wbusy = s.wbusy := rfl
@[simp] theorem putCounter_errcode (c : BitVec 64) (s : State) : (putCounter c s).errcode = s.errcode := rfl
@[simp] theorem putCounter_lastop (c : BitVec 64) (s : State) : (putCounter c s).lastop = s.lastop := rfl
@[simp] theorem putCounter_keyLen (c : BitVec 64) (s : State) : (putCounter c s).keyLen = s.keyLen := rfl
@[simp] theorem putCounter_stepReg (c : BitVec 64) (s : State) : (putCounter c s).stepReg = s.stepReg := rfl
@[simp] theorem putCounter_offsetReg (c : BitVec 64) (s : State) : (putCounter c s).offsetReg = s.offsetReg := rfl
@[simp] theorem putCounter_timeLo (c : BitVec 64) (s : State) : (putCounter c s).timeLo = s.timeLo := rfl
@[simp] theorem putCounter_timeHi (c : BitVec 64) (s : State) : (putCounter c s).timeHi = s.timeHi := rfl
@[simp] theorem putCounter_counterLo (c : BitVec 64) (s : State) : (putCounter c s).counterLo = c.extractLsb' 0 32 := rfl
@[simp] theorem putCounter_counterHi (c : BitVec 64) (s : State) : (putCounter c s).counterHi = c.extractLsb' 32 32 := rfl
@[simp] theorem putCounter_key (c : BitVec 64) (s : State) : (putCounter c s).key = s.key := rfl
@[simp] theorem putCounter_digest (c : BitVec 64) (s : State) : (putCounter c s).digest = s.digest := rfl
@[simp] theorem putCounter_trunc (c : BitVec 64) (s : State) : (putCounter c s).trunc = s.trunc := rfl
@[simp] theorem putCounter_code (c : BitVec 64) (s : State) : (putCounter c s).code = s.code := rfl
@[simp] theorem putCounter_codeBcd (c : BitVec 64) (s : State) : (putCounter c s).codeBcd = s.codeBcd := rfl
@[simp] theorem putCounter_legacyLen (c : BitVec 64) (s : State) : (putCounter c s).legacyLen = s.legacyLen := rfl
@[simp] theorem putCounter_tofs (c : BitVec 64) (s : State) : (putCounter c s).tofs = s.tofs := rfl
@[simp] theorem putCounter_valid (c : BitVec 64) (s : State) : (putCounter c s).valid = s.valid := rfl
@[simp] theorem putCounter_turns (c : BitVec 64) (s : State) : (putCounter c s).turns = s.turns := rfl
@[simp] theorem putCounter_resp (c : BitVec 64) (s : State) : (putCounter c s).resp = s.resp := rfl
@[simp] theorem putCounter_freeCount (c : BitVec 64) (s : State) : (putCounter c s).freeCount = s.freeCount := rfl

/-! ### putDigest -/

@[simp] theorem putDigest_eng (d : List Byte) (s : State) : (putDigest d s).eng = s.eng := rfl
@[simp] theorem putDigest_ie (d : List Byte) (s : State) : (putDigest d s).ie = s.ie := rfl
@[simp] theorem putDigest_done (d : List Byte) (s : State) : (putDigest d s).done = s.done := rfl
@[simp] theorem putDigest_err (d : List Byte) (s : State) : (putDigest d s).err = s.err := rfl
@[simp] theorem putDigest_wbusy (d : List Byte) (s : State) : (putDigest d s).wbusy = s.wbusy := rfl
@[simp] theorem putDigest_errcode (d : List Byte) (s : State) : (putDigest d s).errcode = s.errcode := rfl
@[simp] theorem putDigest_lastop (d : List Byte) (s : State) : (putDigest d s).lastop = s.lastop := rfl
@[simp] theorem putDigest_keyLen (d : List Byte) (s : State) : (putDigest d s).keyLen = s.keyLen := rfl
@[simp] theorem putDigest_stepReg (d : List Byte) (s : State) : (putDigest d s).stepReg = s.stepReg := rfl
@[simp] theorem putDigest_offsetReg (d : List Byte) (s : State) : (putDigest d s).offsetReg = s.offsetReg := rfl
@[simp] theorem putDigest_timeLo (d : List Byte) (s : State) : (putDigest d s).timeLo = s.timeLo := rfl
@[simp] theorem putDigest_timeHi (d : List Byte) (s : State) : (putDigest d s).timeHi = s.timeHi := rfl
@[simp] theorem putDigest_counterLo (d : List Byte) (s : State) : (putDigest d s).counterLo = s.counterLo := rfl
@[simp] theorem putDigest_counterHi (d : List Byte) (s : State) : (putDigest d s).counterHi = s.counterHi := rfl
@[simp] theorem putDigest_key (d : List Byte) (s : State) : (putDigest d s).key = s.key := rfl
@[simp] theorem putDigest_trunc (d : List Byte) (s : State) : (putDigest d s).trunc = s.trunc := rfl
@[simp] theorem putDigest_code (d : List Byte) (s : State) : (putDigest d s).code = s.code := rfl
@[simp] theorem putDigest_codeBcd (d : List Byte) (s : State) : (putDigest d s).codeBcd = s.codeBcd := rfl
@[simp] theorem putDigest_legacyLen (d : List Byte) (s : State) : (putDigest d s).legacyLen = s.legacyLen := rfl
@[simp] theorem putDigest_tofs (d : List Byte) (s : State) : (putDigest d s).tofs = s.tofs := rfl
@[simp] theorem putDigest_valid (d : List Byte) (s : State) : (putDigest d s).valid = s.valid := rfl
@[simp] theorem putDigest_turns (d : List Byte) (s : State) : (putDigest d s).turns = s.turns := rfl
@[simp] theorem putDigest_resp (d : List Byte) (s : State) : (putDigest d s).resp = s.resp := rfl
@[simp] theorem putDigest_freeCount (d : List Byte) (s : State) : (putDigest d s).freeCount = s.freeCount := rfl

/-! ### putTruncation -/

@[simp] theorem putTruncation_eng (d : List Byte) (s : State) : (putTruncation d s).eng = s.eng := rfl
@[simp] theorem putTruncation_ie (d : List Byte) (s : State) : (putTruncation d s).ie = s.ie := rfl
@[simp] theorem putTruncation_done (d : List Byte) (s : State) : (putTruncation d s).done = s.done := rfl
@[simp] theorem putTruncation_err (d : List Byte) (s : State) : (putTruncation d s).err = s.err := rfl
@[simp] theorem putTruncation_wbusy (d : List Byte) (s : State) : (putTruncation d s).wbusy = s.wbusy := rfl
@[simp] theorem putTruncation_errcode (d : List Byte) (s : State) : (putTruncation d s).errcode = s.errcode := rfl
@[simp] theorem putTruncation_lastop (d : List Byte) (s : State) : (putTruncation d s).lastop = s.lastop := rfl
@[simp] theorem putTruncation_keyLen (d : List Byte) (s : State) : (putTruncation d s).keyLen = s.keyLen := rfl
@[simp] theorem putTruncation_stepReg (d : List Byte) (s : State) : (putTruncation d s).stepReg = s.stepReg := rfl
@[simp] theorem putTruncation_offsetReg (d : List Byte) (s : State) : (putTruncation d s).offsetReg = s.offsetReg := rfl
@[simp] theorem putTruncation_timeLo (d : List Byte) (s : State) : (putTruncation d s).timeLo = s.timeLo := rfl
@[simp] theorem putTruncation_timeHi (d : List Byte) (s : State) : (putTruncation d s).timeHi = s.timeHi := rfl
@[simp] theorem putTruncation_counterLo (d : List Byte) (s : State) : (putTruncation d s).counterLo = s.counterLo := rfl
@[simp] theorem putTruncation_counterHi (d : List Byte) (s : State) : (putTruncation d s).counterHi = s.counterHi := rfl
@[simp] theorem putTruncation_key (d : List Byte) (s : State) : (putTruncation d s).key = s.key := rfl
@[simp] theorem putTruncation_digest (d : List Byte) (s : State) : (putTruncation d s).digest = s.digest := rfl
@[simp] theorem putTruncation_trunc (d : List Byte) (s : State) : (putTruncation d s).trunc = BitVec.ofNat 31 (truncValue d) := rfl
@[simp] theorem putTruncation_code (d : List Byte) (s : State) : (putTruncation d s).code = BitVec.ofNat 20 (codeOf (truncValue d)) := rfl
@[simp] theorem putTruncation_codeBcd (d : List Byte) (s : State) : (putTruncation d s).codeBcd = BitVec.ofNat 24 (bcdOf (codeOf (truncValue d))) := rfl
@[simp] theorem putTruncation_legacyLen (d : List Byte) (s : State) : (putTruncation d s).legacyLen = BitVec.ofNat 3 (legacyLength (truncValue d)) := rfl
@[simp] theorem putTruncation_tofs (d : List Byte) (s : State) : (putTruncation d s).tofs = truncOffset d := rfl
@[simp] theorem putTruncation_valid (d : List Byte) (s : State) : (putTruncation d s).valid = true := rfl
@[simp] theorem putTruncation_turns (d : List Byte) (s : State) : (putTruncation d s).turns = s.turns := rfl
@[simp] theorem putTruncation_resp (d : List Byte) (s : State) : (putTruncation d s).resp = s.resp := rfl
@[simp] theorem putTruncation_freeCount (d : List Byte) (s : State) : (putTruncation d s).freeCount = s.freeCount := rfl

/-! ### eraseAll -/

@[simp] theorem eraseAll_eng (s : State) : (eraseAll s).eng = s.eng := rfl
@[simp] theorem eraseAll_ie (s : State) : (eraseAll s).ie = s.ie := rfl
@[simp] theorem eraseAll_done (s : State) : (eraseAll s).done = s.done := rfl
@[simp] theorem eraseAll_err (s : State) : (eraseAll s).err = s.err := rfl
@[simp] theorem eraseAll_wbusy (s : State) : (eraseAll s).wbusy = s.wbusy := rfl
@[simp] theorem eraseAll_errcode (s : State) : (eraseAll s).errcode = s.errcode := rfl
@[simp] theorem eraseAll_lastop (s : State) : (eraseAll s).lastop = s.lastop := rfl
@[simp] theorem eraseAll_keyLen (s : State) : (eraseAll s).keyLen = 0 := rfl
@[simp] theorem eraseAll_stepReg (s : State) : (eraseAll s).stepReg = 0 := rfl
@[simp] theorem eraseAll_offsetReg (s : State) : (eraseAll s).offsetReg = 0 := rfl
@[simp] theorem eraseAll_timeLo (s : State) : (eraseAll s).timeLo = 0 := rfl
@[simp] theorem eraseAll_timeHi (s : State) : (eraseAll s).timeHi = 0 := rfl
@[simp] theorem eraseAll_counterLo (s : State) : (eraseAll s).counterLo = 0 := rfl
@[simp] theorem eraseAll_counterHi (s : State) : (eraseAll s).counterHi = 0 := rfl
@[simp] theorem eraseAll_key (s : State) : (eraseAll s).key = Vector.replicate 16 0 := rfl
@[simp] theorem eraseAll_digest (s : State) : (eraseAll s).digest = Vector.replicate 5 0 := rfl
@[simp] theorem eraseAll_trunc (s : State) : (eraseAll s).trunc = 0 := rfl
@[simp] theorem eraseAll_code (s : State) : (eraseAll s).code = 0 := rfl
@[simp] theorem eraseAll_codeBcd (s : State) : (eraseAll s).codeBcd = 0 := rfl
@[simp] theorem eraseAll_legacyLen (s : State) : (eraseAll s).legacyLen = 0 := rfl
@[simp] theorem eraseAll_tofs (s : State) : (eraseAll s).tofs = 0 := rfl
@[simp] theorem eraseAll_valid (s : State) : (eraseAll s).valid = false := rfl
@[simp] theorem eraseAll_turns (s : State) : (eraseAll s).turns = s.turns := rfl
@[simp] theorem eraseAll_resp (s : State) : (eraseAll s).resp = s.resp := rfl
@[simp] theorem eraseAll_freeCount (s : State) : (eraseAll s).freeCount = s.freeCount := rfl

end Sys2Proof.Machine
end

