-- ==== Sys2Proof/Laws/Ops.lean ====
section
/-! SUPPORT. One lemma per shared operation: what a completion, a register access, a bus transaction and a turn can do.
Proofs cite these instead of unfolding the operations. -/

namespace Sys2Proof.Machine

/-! ### Completion -/

theorem complete_ok (u s : State) : complete (.ok u) s = .next (finish u) := rfl

theorem complete_error (e : CmdError) (s : State) : complete (.error e) s = .next (finish (reportError e s)) := rfl

/-- A completion is one of two: the registers of EXEC_op, or an error that writes STATUS only. -/
theorem complete_cases (r : Except CmdError State) (s : State) :
    (∃ u, r = .ok u ∧ complete r s = .next (finish u)) ∨
      ∃ e, r = .error e ∧ complete r s = .next (finish (reportError e s)) := by
  cases r with
  | ok u => exact .inl ⟨u, rfl, rfl⟩
  | error e => exact .inr ⟨e, rfl, rfl⟩

/-- EXEC_op of every command, as the one table that `exec` completes. -/
def execResult : Instr → State → Except CmdError State
  | .nop, s => .ok s
  | .encode, s => encodeResult s
  | .hmac, s => hmacResult s
  | .trunc, s => truncResult s
  | .hotp, s => hotpOfCounter (counterOf s) s
  | .totp, s => totpResult s
  | .clear, s => .ok (eraseAll s)
  | .reserved6, _ | .reserved7, _ | .reserved8, _ | .reserved9, _ | .reservedA, _ => .error .illegalCmd
  | .reservedB, _ | .reservedC, _ | .reservedD, _ | .reservedE, _ => .error .illegalCmd
  | .illegalRsv _ _, _ => .error .illegalCmd

/-- Every command's meaning is the completion of its EXEC_op (40_command_model.md R116). -/
theorem exec_eq_complete (i : Instr) (s : State) : exec i s = complete (execResult i s) s := by
  cases i <;> rfl

/-! ### Registers and transactions -/

theorem busy_idle {s : State} (h : s.eng = .idle) : busy s = false := by simp [busy, h]

theorem busy_busy {s : State} {op : BitVec 4} {ok : Bool} (h : s.eng = .busy op ok) : busy s = true := by
  simp [busy, h]

/-- `busy` is the view of ENG (10_state.md R22). -/
theorem busy_iff (s : State) : busy s = true ↔ ∃ op ok, s.eng = .busy op ok := by
  cases h : s.eng <;> simp [busy, h]

theorem regAt_offsetOf (r : Reg) : regAt (offsetOf r) = some r := by
  cases r with
  | key j => revert j; decide
  | digest j => revert j; decide
  | _ => decide

set_option maxRecDepth 4000 in
theorem offsetOf_of_regAt : ∀ (off : BitVec 8) (r : Reg), regAt off = some r → off = offsetOf r := by
  have key : ∀ n, n < 256 →
      ((regAt (BitVec.ofNat 8 n)).map offsetOf).getD (BitVec.ofNat 8 n) = BitVec.ofNat 8 n := by decide
  intro off r h
  have hk := key off.toNat off.isLt
  simp only [BitVec.ofNat_toNat, BitVec.setWidth_eq, h, Option.map_some, Option.getD_some] at hk
  exact hk.symm

/-- A dropped write. -/
theorem writeReg_locked {r : Reg} {s : State} (v : Word) (hl : locked r = true) (hb : busy s = true) :
    writeReg r v s = { s with wbusy := true } := by simp [writeReg, hl, hb]

/-- A write that is not dropped. -/
theorem writeReg_free {r : Reg} {s : State} (v : Word) (h : locked r = false ∨ busy s = false) :
    writeReg r v s = storeReg r v s := by
  rcases h with h | h <;> simp [writeReg, h]

theorem serve_read {q : BusReq} {r : Reg} (s : State) (hq : q.write = false) (hr : regAt q.off = some r) :
    serve q s = { s with resp := some ⟨some (readReg r s), false⟩ } := by simp [serve, hq, hr]

theorem serve_write {q : BusReq} {r : Reg} (s : State) (hq : q.write = true) (hr : regAt q.off = some r)
    (hs : q.wstrb = 0b1111) : serve q s = { writeReg r q.wdata s with resp := some ⟨none, false⟩ } := by
  simp [serve, hq, hr, hs]

/-- What a transaction can do: be answered by an ERROR, be a read, or be a write of a whole word. -/
theorem serve_cases (q : BusReq) (s : State) :
    serve q s = busError q s ∨
      (∃ r, regAt q.off = some r ∧ q.write = false ∧
        serve q s = { s with resp := some ⟨some (readReg r s), false⟩ }) ∨
      ∃ r, regAt q.off = some r ∧ q.write = true ∧ q.wstrb = 0b1111 ∧
        serve q s = { writeReg r q.wdata s with resp := some ⟨none, false⟩ } := by
  cases hr : regAt q.off with
  | none => exact .inl (by simp [serve, hr])
  | some r =>
    cases hq : q.write with
    | false => exact .inr (.inl ⟨r, rfl, rfl, serve_read s hq hr⟩)
    | true =>
      by_cases hs : q.wstrb = 0b1111
      · exact .inr (.inr ⟨r, rfl, rfl, hs, serve_write s hq hr hs⟩)
      · exact .inl (by simp only [serve, hr, hq, if_true]; rw [if_neg hs])

/-- An ERROR response changes the model's own fields only. -/
theorem busError_eq (q : BusReq) (s : State) :
    ∃ d n, busError q s = { s with resp := some ⟨d, true⟩, freeCount := n } := by
  unfold busError
  split
  · exact ⟨_, _, rfl⟩
  · split
    · exact ⟨_, _, rfl⟩
    · exact ⟨_, _, rfl⟩

/-- A transaction at a bus address is one at an offset, or reaches no port of the block. -/
theorem serveAt_cases (addr : Nat) (write : Bool) (wdata : Word) (wstrb : BitVec 4) (s : State) :
    (∃ off, selectOffset Config.base addr = some off ∧
        serveAt addr write wdata wstrb s = serve ⟨write, off, wdata, wstrb⟩ s) ∨
      (selectOffset Config.base addr = none ∧ serveAt addr write wdata wstrb s = { s with resp := none }) := by
  unfold serveAt
  cases h : selectOffset Config.base addr with
  | none => exact .inr ⟨rfl, rfl⟩
  | some off => exact .inl ⟨off, rfl, rfl⟩

/-- One read of a poll ends it, or schedules the engine and the next read. -/
theorem pollOnce_cases (off : BitVec 8) (mask val : Word) (s : State) :
    (pollEnds mask val (serve (readReq off) s) = true ∧ pollOnce off mask val s = serve (readReq off) s) ∨
      (pollEnds mask val (serve (readReq off) s) = false ∧
        pollOnce off mask val s = { serve (readReq off) s with
          turns := .engine :: .poll off mask val :: (serve (readReq off) s).turns }) := by
  cases h : pollEnds mask val (serve (readReq off) s)
  · exact .inr ⟨rfl, by simp [pollOnce, h]⟩
  · exact .inl ⟨rfl, by simp [pollOnce, h]⟩

/-- Reset leaves the reset block, but for the model's own fields. -/
theorem resetBlock_eq (inFlight : Option BusReq) (s : State) :
    ∃ r n, resetBlock inFlight s = { State.reset with turns := s.turns, resp := r, freeCount := n } := by
  cases inFlight with
  | none => exact ⟨_, _, rfl⟩
  | some q => exact ⟨_, _, rfl⟩

/-! ### Turns -/

theorem step_nil {s : State} (h : s.turns = []) : step s = engineTurn s := by simp [step, nextTurn, h]

theorem step_cons {s : State} {t : Turn} {rest : List Turn} (h : s.turns = t :: rest) :
    step s = takeTurn t { s with turns := rest } := by simp [step, nextTurn, h]

theorem engineTurn_idle {s : State} (h : s.eng = .idle) : engineTurn s = .next s := by simp [engineTurn, h]

theorem engineTurn_busy {s : State} {op : BitVec 4} {ok : Bool} (h : s.eng = .busy op ok) :
    engineTurn s = exec (commandOf op ok) s := by simp [engineTurn, h]

end Sys2Proof.Machine
end

