-- ==== Sys2Proof/Laws/Commands.lean ====
section
/-! SUPPORT. Lemmas about commands: the two fields of a command word, what each meaning answers in each of its
    cases, and
what no EXEC_op touches. Proofs cite these instead of unfolding a meaning. -/

namespace Sys2Proof.Machine

/-! ### Command words -/

/-- The OP field of a command's word. -/
theorem wordOp_encode (i : Instr) : wordOp (encode i) = opField i := by
  cases i <;> first | decide | exact Laws.OpField.illegalRsv _ _

/-- Bits [31:4] of a command's word. -/
theorem wordRsv_encode (i : Instr) : wordRsv (encode i) = rsvField i := by
  cases i with
  | illegalRsv rsv op =>
    simp only [wordRsv, encode, rsvField, opField]
    ext j hj
    rw [BitVec.getElem_extractLsb', BitVec.getLsbD_append, if_neg (by omega), show 4 + j - 4 = j by omega,
        BitVec.getLsbD_eq_getElem hj]
  | _ => decide

/-- A word is its two fields. -/
theorem split_word (w : Word) : (wordRsv w ++ wordOp w : BitVec (28+4)) = w := by
  ext j hj
  simp only [BitVec.getElem_append, wordRsv, wordOp]
  split
  · simp; exact (BitVec.getLsbD_eq_getElem hj)
  · simp; rw [show 4 + (j-4) = j by omega]; exact BitVec.getLsbD_eq_getElem hj

/-- The sixteen rows of the opcode map. -/
theorem decodeOp_wf : ∀ op, (decodeOp op).WellFormed ∧ opField (decodeOp op) = op ∧ rsvField (decodeOp op) = 0 := by
    decide

/-- Bits [31:4] are zero exactly where the number is below 16. -/
theorem rsv_zero (w : Word) : wordRsv w = 0 ↔ w.toNat / 16 = 0 := by
  rw [← BitVec.toNat_inj]; simp [wordRsv, BitVec.extractLsb'_toNat, Nat.shiftRight_eq_div_pow]
  omega

/-- The OP field as a number. -/
theorem op_toNat (w : Word) : (wordOp w).toNat = w.toNat % 16 := by
  simp [wordOp, BitVec.extractLsb'_toNat]

/-- Every command outside the opcode set completes with ILLEGAL_CMD. -/
theorem exec_illegal {i : Instr} (h : isLegalCommand i = false) (s : State) : exec i s = completeIllegal s := by
  cases i <;> simp [isLegalCommand] at h <;> rfl

/-- The command that the engine runs is legal exactly where its verdict and its OP say so. -/
theorem commandOf_legal : ∀ op ok, isLegalCommand (commandOf op ok) = (ok && isLegalCommand (decodeOp op)) := by
    decide

/-! ### Meanings -/

/-- The key-length check as bounds. -/
theorem keyLegal_iff (s : State) : keyLegal s = true ↔ 1 ≤ s.keyLen.toNat ∧ s.keyLen.toNat ≤ 64 := by
  simp [keyLegal]

/-- A key length outside them. -/
theorem keyLegal_no {s : State} (h : s.keyLen.toNat = 0 ∨ 64 < s.keyLen.toNat) : keyLegal s = false := by
  rw [Bool.eq_false_iff, Ne, keyLegal_iff]; omega

/-- The counter registers hold the counter that was put there. -/
theorem counterOf_put (c : BitVec 64) (s : State) : counterOf (putCounter c s) = c := by
  simp only [counterOf, putCounter_counterHi, putCounter_counterLo]
  ext i hi
  simp only [BitVec.getElem_append, BitVec.getElem_extractLsb']
  split
  · rw [Nat.zero_add]; exact BitVec.getLsbD_eq_getElem hi
  · rw [show 32 + (i-32) = i by omega]; exact BitVec.getLsbD_eq_getElem hi

/-- The counter of a time, where it fits 64 bits. -/
theorem encodeCounter_ok {t S : Nat} {ofs : Int} (h0 : 0 ≤ (t / S : Nat) + ofs) (h1 : (t / S : Nat) + ofs ≤ 2^64-1) :
   ∃ c, encodeCounter t S ofs = .ok c ∧ (c.toNat : Int) = (t / S : Nat) + ofs := by
  refine ⟨BitVec.ofInt 64 ((t / S : Nat) + ofs), ?_, ?_⟩
  · simp only [encodeCounter]; rw [if_neg (by omega)]
  · rw [BitVec.toNat_ofInt]; omega

/-- Where it does not. -/
theorem encodeCounter_bad {t S : Nat} {ofs : Int} (h : ¬ (0 ≤ (t / S : Nat) + ofs ∧ (t / S : Nat) + ofs ≤ 2^64-1)) :
   encodeCounter t S ofs = .error .invalidCounter := by
  simp only [encodeCounter]; rw [if_pos (by omega)]

/-- The two outcomes of the counter encoder. -/
theorem nextCounter_cases (s : State) :
    (∃ c, nextCounter s = .ok c ∧ (c.toNat : Int) = (timeOf s / effectiveStep s : Nat) + offsetOfCounter s) ∨
      (nextCounter s = .error .invalidCounter ∧
        ¬(0 ≤ ((timeOf s / effectiveStep s : Nat) : Int) + offsetOfCounter s ∧
          ((timeOf s / effectiveStep s : Nat) : Int) + offsetOfCounter s ≤ 2^64-1)) := by
  by_cases h : 0 ≤ ((timeOf s / effectiveStep s : Nat) : Int) + offsetOfCounter s ∧
      ((timeOf s / effectiveStep s : Nat) : Int) + offsetOfCounter s ≤ 2^64-1
  · exact .inl (encodeCounter_ok h.1 h.2)
  · exact .inr ⟨encodeCounter_bad h, h⟩

/-- ENCODE, in range. -/
theorem exec_encode_ok {s : State} {c} (h : nextCounter s = .ok c) :
    exec .encode s = .next (finish (putCounter c s)) := by
  show complete (encodeResult s) s = _
  simp [encodeResult, h, Except.map, complete]

/-- ENCODE, out of range. -/
theorem exec_encode_bad {s : State} {c} (h : nextCounter s = .error c) :
    exec .encode s = .next (finish (reportError c s)) := by
  show complete (encodeResult s) s = _
  simp [encodeResult, h, Except.map, complete]

/-- HMAC, legal key. -/
theorem exec_hmac_ok {s : State} (h : keyLegal s = true) :
    exec .hmac s = .next (finish (putDigest (hmacSha1 (keyBytes s) (be64 (counterOf s))) s)) := by
  show complete (hmacResult s) s = _
  simp [hmacResult, digestOfCounter, h, Except.map, complete]

/-- HMAC, illegal key. -/
theorem exec_hmac_bad {s : State} (h : keyLegal s = false) :
    exec .hmac s = .next (finish (reportError .invalidKey s)) := by
  show complete (hmacResult s) s = _
  simp [hmacResult, digestOfCounter, h, Except.map, complete]

/-- HOTP, legal key. -/
theorem exec_hotp_ok {s : State} (h : keyLegal s = true) :
    exec .hotp s = .next (finish (putTruncation (hmacSha1 (keyBytes s) (be64 (counterOf s)))
      (putDigest (hmacSha1 (keyBytes s) (be64 (counterOf s))) s))) := by
  show complete (hotpOfCounter _ s) s = _
  simp [hotpOfCounter, digestOfCounter, h, Except.map, complete]

/-- HOTP, illegal key. -/
theorem exec_hotp_bad {s : State} (h : keyLegal s = false) :
    exec .hotp s = .next (finish (reportError .invalidKey s)) := by
  show complete (hotpOfCounter _ s) s = _
  simp [hotpOfCounter, digestOfCounter, h, Except.map, complete]

/-- TOTP, in range, legal key. -/
theorem exec_totp_ok {s : State} {c} (hc : nextCounter s = .ok c) (h : keyLegal s = true) :
    exec .totp s = .next (finish (putCounter c (putTruncation (hmacSha1 (keyBytes s) (be64 c))
      (putDigest (hmacSha1 (keyBytes s) (be64 c)) s)))) := by
  show complete (totpResult s) s = _
  simp [totpResult, hc, hotpOfCounter, digestOfCounter, h, Except.map, complete]

/-- TOTP, in range, illegal key. -/
theorem exec_totp_badkey {s : State} {c} (hc : nextCounter s = .ok c) (h : keyLegal s = false) :
    exec .totp s = .next (finish (reportError .invalidKey s)) := by
  show complete (totpResult s) s = _
  simp [totpResult, hc, hotpOfCounter, digestOfCounter, h, Except.map, complete]

/-- TOTP, out of range. -/
theorem exec_totp_bad {s : State} {c} (hc : nextCounter s = .error c) :
    exec .totp s = .next (finish (reportError c s)) := by
  show complete (totpResult s) s = _
  simp [totpResult, hc, complete]

/-- What no EXEC_op writes: the engine, CTRL, STATUS and the model's own fields. -/
theorem execResult_frame (i : Instr) (s u : State) (h : execResult i s = .ok u) : u.eng = s.eng ∧ u.ie = s.ie ∧
    u.done = s.done ∧ u.err = s.err ∧ u.wbusy = s.wbusy ∧ u.errcode = s.errcode ∧ u.lastop = s.lastop ∧ u.turns =
    s.turns ∧ u.resp = s.resp ∧ u.freeCount = s.freeCount := by
  cases i <;> simp only [execResult, encodeResult, hmacResult, truncResult, hotpOfCounter, totpResult,
      digestOfCounter, reduceCtorEq, Except.ok.injEq] at h
  case nop => subst h; simp
  case encode =>
    cases hn : nextCounter s <;> simp [hn, Except.map] at h
    subst h; simp
  case hmac => split at h <;> simp [Except.map] at h; subst h; simp
  case trunc => subst h; simp
  case hotp => split at h <;> simp [Except.map] at h; subst h; simp
  case totp =>
    cases hn : nextCounter s <;> simp [hn] at h
    split at h <;> simp [Except.map] at h; subst h; simp
  case clear => subst h; simp

end Sys2Proof.Machine
end

