-- ==== Sys2Proof/Laws/Turns.lean ====
section
/-! SUPPORT. Lemmas about one step and about runs: a host turn, the engine's turn, and the relations between blocks. -/

namespace Sys2Proof.Machine

/-! ### Runs -/

/-- The first step of a run. -/
theorem run_succ {s t : State} (k) (h : step s = .next t) : runSteps (k+1) s = runSteps k t := by
  have h' : Sys2Proof.core.step s = .next t := h
  simp only [runSteps, Host.Core.run, h']; rfl

/-- A run of one step. -/
theorem run_one (s : State) : runSteps 1 s = step s := by
  have h' : Sys2Proof.core.step s = step s := rfl
  simp only [runSteps, Host.Core.run, h']
  cases step s <;> rfl

/-! ### Host turns -/

/-- A transaction is served. -/
theorem step_host {s : State} {q rest} (ht : s.turns = .host q :: rest) : step s = .next (serve q { s with turns :=
    rest }) := by
  rw [step_cons ht]; rfl

/-- Serving a transaction schedules nothing. -/
theorem serve_turns (q s) : (serve q s).turns = s.turns := by
  rcases serve_cases q s with h | ⟨r, _, _, h⟩ | ⟨r, _, _, _, h⟩
  · obtain ⟨d, n, h2⟩ := busError_eq q s; rw [h, h2]
  · rw [h]
  · rw [h]; unfold writeReg; split; rfl; cases r <;> rfl

/-- A read of a register. -/
theorem step_read (s : State) (off) (r) (rest) (hr : regAt off = some r) (ht : s.turns = .host (readReq off) ::
    rest) :
    step s = .next { s with turns := rest, resp := some ⟨some (readReg r s), false⟩ } := by
  rw [step_cons ht]
  show Host.Outcome.next (serve _ _) = _
  rw [serve_read _ rfl hr]; cases r <;> rfl

/-- A write that is not dropped. -/
theorem step_write (s : State) (off) (r) (v : Word) (rest) (hr : regAt off = some r) (hl : locked r = false ∨ busy s
    = false) (ht : s.turns = .host (writeReq off v) :: rest) :
    step s = .next { storeReg r v { s with turns := rest } with resp := some ⟨none, false⟩ } := by
  rw [step_cons ht]
  show Host.Outcome.next (serve _ _) = _
  rw [serve_write _ rfl hr rfl, writeReg_free (s := { s with turns := rest }) _ hl]
  rfl

/-- A write that the lock drops. -/
theorem step_locked (s : State) (off) (r) (v : Word) (rest) (hr : regAt off = some r) (hl : locked r = true) (hb :
    busy s = true) (ht : s.turns = .host (writeReq off v) :: rest) :
    step s = .next { s with wbusy := true, turns := rest, resp := some ⟨none, false⟩ } := by
  rw [step_cons ht]
  show Host.Outcome.next (serve _ _) = _
  rw [serve_write _ rfl hr rfl, writeReg_locked (s := { s with turns := rest }) _ hl hb]

/-! ### Relations between blocks -/

/-- Operand registers agree with themselves. -/
theorem SameOperands.refl (s : State) : SameOperands s s := ⟨rfl, rfl, rfl, rfl, rfl, rfl, rfl, rfl, rfl⟩

/-- Result registers agree with themselves. -/
theorem SameResults.refl (s : State) : SameResults s s := ⟨rfl, rfl, rfl, rfl, rfl, rfl⟩

/-- Agreement of operand registers is transitive. -/
theorem SameOperands.trans {a b c : State} (h1 : SameOperands a b) (h2 : SameOperands b c) : SameOperands a c := by
  obtain ⟨a1,a2,a3,a4,a5,a6,a7,a8,a9⟩ := h1; obtain ⟨b1,b2,b3,b4,b5,b6,b7,b8,b9⟩ := h2
  exact ⟨b1.trans a1,b2.trans a2,b3.trans a3,b4.trans a4,b5.trans a5,b6.trans a6,b7.trans a7,b8.trans a8,b9.trans a9⟩

/-- Agreement of result registers is transitive. -/
theorem SameResults.trans {a b c : State} (h1 : SameResults a b) (h2 : SameResults b c) : SameResults a c := by
  obtain ⟨a1,a2,a3,a4,a5,a6⟩ := h1; obtain ⟨b1,b2,b3,b4,b5,b6⟩ := h2
  exact ⟨b1.trans a1,b2.trans a2,b3.trans a3,b4.trans a4,b5.trans a5,b6.trans a6⟩

/-- While a command is in progress a transaction changes neither ENG, LASTOP, an operand nor a result register. -/
theorem serve_busy (q : BusReq) (s : State) (hb : busy s = true) : (serve q s).eng = s.eng ∧ (serve q s).lastop =
    s.lastop ∧ SameOperands s (serve q s) ∧ SameResults s (serve q s) ∧ (s.err = false → (serve q s).err = false) ∧
    (s.errcode = 0 → (serve q s).errcode = 0) := by
  rcases serve_cases q s with h | ⟨r, _, _, h⟩ | ⟨r, hr, _, _, h⟩
  · obtain ⟨d, n, h2⟩ := busError_eq q s; rw [h, h2]; exact ⟨rfl, rfl, ⟨rfl,rfl,rfl,rfl,rfl,rfl,rfl,rfl,rfl⟩,
        ⟨rfl,rfl,rfl,rfl,rfl,rfl⟩, id, id⟩
  · rw [h]; exact ⟨rfl, rfl, ⟨rfl,rfl,rfl,rfl,rfl,rfl,rfl,rfl,rfl⟩, ⟨rfl,rfl,rfl,rfl,rfl,rfl⟩, id, id⟩
  · rw [h]; unfold writeReg
    split
    · exact ⟨rfl, rfl, ⟨rfl,rfl,rfl,rfl,rfl,rfl,rfl,rfl,rfl⟩, ⟨rfl,rfl,rfl,rfl,rfl,rfl⟩, id, id⟩
    · rename_i hl
      rw [hb, Bool.and_true] at hl
      cases r <;> first | exact absurd rfl hl | exact ⟨rfl, rfl, ⟨rfl,rfl,rfl,rfl,rfl,rfl,rfl,rfl,rfl⟩,
          ⟨rfl,rfl,rfl,rfl,rfl,rfl⟩, id, id⟩ | (refine ⟨rfl, rfl, ⟨rfl,rfl,rfl,rfl,rfl,rfl,rfl,rfl,rfl⟩,
          ⟨rfl,rfl,rfl,rfl,rfl,rfl⟩, ?_, ?_⟩ <;> (intro h; simp [storeReg, clearStatus, h]))

end Sys2Proof.Machine
end

