-- ==== Sys2Proof/Laws/HostProgram.lean ====
section
/-! SUPPORT. Lemmas about host programs: how a run goes on after one step, what a STATUS word tells the host, and what
`verify` answers from its slots. -/

namespace Sys2Proof.Machine

/-! ### Schedules and runs -/

/-- The schedule of two programs, one after the other. -/
@[simp] theorem programTurns_append (p q : List Stmt) : programTurns (p ++ q) = programTurns p ++ programTurns q := by
  simp [programTurns]

/-- The first step of a run that collects data. -/
theorem runReads_next {s t : State} (k : Nat) (h : nextTurn s = .next t) :
    runReads (k + 1) s = ((runReads k t).1, readBack s t ++ (runReads k t).2) := by
  simp only [runReads, h]

/-- A write that is not dropped adds no data. -/
theorem runReads_write (s : State) (off : BitVec 8) (r : Reg) (v : Word) (rest : List Turn) (k : Nat)
    (hr : regAt off = some r) (hl : locked r = false ∨ busy s = false) (ht : s.turns = .host (writeReq off v) :: rest) :
    runReads (k + 1) s = runReads k { storeReg r v { s with turns := rest } with resp := some ⟨none, false⟩ } := by
  rw [runReads_next k (step_write s off r v rest hr hl ht)]
  simp [readBack, ht, writeReq]

/-- A read of a register adds its value. -/
theorem runReads_read (s : State) (off : BitVec 8) (r : Reg) (rest : List Turn) (k : Nat) (hr : regAt off = some r)
    (ht : s.turns = .host (readReq off) :: rest) :
    runReads (k + 1) s =
      ((runReads k { s with turns := rest, resp := some ⟨some (readReg r s), false⟩ }).1,
        readReg r s :: (runReads k { s with turns := rest, resp := some ⟨some (readReg r s), false⟩ }).2) := by
  rw [runReads_next k (step_read s off r rest hr ht)]
  simp [readBack, ht, readReq]

/-! ### The STATUS word and the window -/

/-- Bit 2 of a STATUS word is ERR. -/
theorem statusWord_err (s : State) : (statusWord s).getLsbD 2 = s.err := by
  unfold statusWord
  simp only [BitVec.getLsbD_append]
  simp

/-- Without ERR the host sees no error. -/
theorem statusError_none {s : State} (h : s.err = false) : statusError (statusWord s) = none := by
  simp only [statusError, statusWord_err, h]
  rfl

/-- Where no slot reported an error, `verify` says whether the candidate is among their strings. -/
theorem verifyAnswer_ok (candidate : List Char) (texts : List (List Char)) :
    verifyAnswer candidate (texts.map .ok) = .ok (texts.contains candidate) := by
  induction texts with
  | nil => rfl
  | cons text rest ih =>
    by_cases h : text = candidate
    · simp [verifyAnswer, slotMatches, h]
    · have hne : (text == candidate) = false := beq_eq_false_iff_ne.mpr h
      simp [verifyAnswer, slotMatches, hne, ih, Ne.symm h]

/-- A slot that does not exist is passed over. -/
theorem verifyAnswer_absent (candidate : List Char) (slots : List (Except CmdError (List Char))) :
    verifyAnswer candidate (.error .invalidCounter :: slots) = verifyAnswer candidate slots := rfl

/-- Without a secret the first slot that exists ends `verify`. -/
theorem verifyAnswer_invalidKey (candidate : List Char) (slots : List (Except CmdError (List Char))) :
    verifyAnswer candidate (.error .invalidKey :: slots) = .error .invalidKey := rfl

end Sys2Proof.Machine
end

