-- ==== Sys2Proof/Tests/Slice0.lean ====
section
/-! SUPPORT. The well-formedness smoke test, command words written out bit by bit, small tests on the values of
95_test_vectors.md (the vector is named at each), and for every statement with hypotheses a witness that meets them. -/

namespace Sys2Proof.Tests

open Sys2Proof.Machine

/-! ### Helpers -/

/-- A view of the next state. -/
def seen {α : Type} (f : State → α) : Host.Outcome State Fault Refusal → Option α
  | .next t => some (f t)
  | _ => none

/-- The block right after reset, with a schedule. -/
def idleAt (ts : List Turn) : State := { State.reset with turns := ts }

/-- The same block with a TOTP command accepted and not completed. -/
def busyAt (ts : List Turn) : State := { State.reset with eng := .busy 5 true, lastop := 5, turns := ts }

/-- The key of RFC 4226 in KEY0 to KEY4, KEYLEN = 20 (95_test_vectors.md, conventions). -/
def keyed (s : State) : State :=
  { s with
    keyLen := 20
    key := #v[0x31323334, 0x35363738, 0x39303132, 0x33343536, 0x37383930, 0, 0, 0, 0, 0, 0, 0, 0, 0, 0, 0] }

/-- What a test reads of a block: STATUS, TRUNC, CODE_BCD, CODE_INFO. -/
def results (s : State) : Word × Word × Word × Word :=
  (statusWord s, readReg .trunc s, readReg .codeBcd s, codeInfoWord s)

/-- A counter test: COUNTER preset as in section 2.3 of 95_test_vectors.md. -/
def timed (hi lo step ofs : Word) : State :=
  accept 1 { State.reset with
    timeHi := hi
    timeLo := lo
    stepReg := step
    offsetReg := ofs
    counterHi := 0xBBBBBBBB
    counterLo := 0xAAAAAAAA }

/-! ### Well-formedness: one check, one ill-formed term -/

theorem test_rsv_zero_is_ill_formed : ¬(Instr.illegalRsv 0 3).WellFormed := by decide

theorem test_rsv_set_is_well_formed : (Instr.illegalRsv 1 3).WellFormed := by decide

/-! ### Decoding: words written out from the encoding of 30_encoding.md R90, R92 -/

theorem test_word_nop : decode 0b00000000000000000000000000000000 = .nop := by decide

theorem test_word_encode : decode 0b00000000000000000000000000000001 = .encode := by decide

theorem test_word_hmac : decode 0b00000000000000000000000000000010 = .hmac := by decide

theorem test_word_trunc : decode 0b00000000000000000000000000000011 = .trunc := by decide

theorem test_word_hotp : decode 0b00000000000000000000000000000100 = .hotp := by decide

theorem test_word_totp : decode 0b00000000000000000000000000000101 = .totp := by decide

theorem test_word_reserved :
    decode 0b0110 = .reserved6 ∧ decode 0b0111 = .reserved7 ∧ decode 0b1000 = .reserved8 ∧ decode 0b1001 = .reserved9 ∧
      decode 0b1010 = .reservedA ∧ decode 0b1011 = .reservedB ∧ decode 0b1100 = .reservedC ∧
      decode 0b1101 = .reservedD ∧ decode 0b1110 = .reservedE := by decide

theorem test_word_clear : decode 0b00000000000000000000000000001111 = .clear := by decide

/-- The lowest and the highest bit of the field [31:4], above the OP of TOTP and of HOTP (V-CT-5, V-CT-6). -/
theorem test_word_illegalRsv :
    decode 0b00000000000000000000000000010101 = .illegalRsv 1 5 ∧
      decode 0b10000000000000000000000000000100 = .illegalRsv 0x8000000 4 := by decide

theorem test_table_word : decodeTableWord 32 0x5 = some .totp ∧ decodeTableWord 32 0x15 = some (.illegalRsv 1 5) := by
  decide

/-! ### Small tests on the spec's vectors -/

/-- V-SH-1: SHA1("abc"). -/
theorem test_sha1_abc :
    beNat (sha1 [0x61, 0x62, 0x63]) = 0xa9993e364706816aba3e25717850c26c9cd0d89d := by decide +kernel

/-- V-SH-4: SHA1 of the empty message. -/
theorem test_sha1_empty : beNat (sha1 []) = 0xda39a3ee5e6b4b0d3255bfef95601890afd80709 := by decide +kernel

/-- V-CT-1. -/
theorem test_nop : (exec .nop (accept 0 State.reset) |> seen id) = some { State.reset with done := true } := by decide +kernel

/-- V-EN-4 and V-EN-16: the offset is added to the quotient; the largest offset. -/
theorem test_encode_ok :
    (exec .encode (timed 0 30 0 0xFFFFFFFF) |> seen fun t => (counterOf t, statusWord t)) = some (0, 0x00001002) ∧
      (exec .encode (timed 0 10 0 0x7FFFFFFF) |> seen fun t => (counterOf t, statusWord t)) =
        some (0x7FFFFFFF, 0x00001002) := by decide +kernel

/-- V-EN-5 and V-EN-13: below zero and past 2^64 - 1. -/
theorem test_encode_error :
    (exec .encode (timed 0 29 0 0xFFFFFFFF) |> seen fun t => (counterOf t, statusWord t)) =
        some (0xBBBBBBBBAAAAAAAA, 0x00001206) ∧
      (exec .encode (timed 0xFFFFFFFF 0xFFFFFFFF 1 1) |> seen fun t => (counterOf t, statusWord t)) =
        some (0xBBBBBBBBAAAAAAAA, 0x00001206) := by decide +kernel

/-- V-HM-3: a key of one byte, the largest counter. -/
theorem test_hmac_one_byte :
    (exec .hmac (accept 2 { State.reset with
        keyLen := 1
        key := State.reset.key.set 0 0x01000000
        counterHi := 0xFFFFFFFF
        counterLo := 0xFFFFFFFF }) |> seen fun t => (beNat (digestBytes t), results t)) =
      some (0x356345440a7d184c7dfad14a027a74ae48b21e0c, 0x00002002, 0, 0, 0) := by decide +kernel

/-- V-HM-6: KEYLEN 65. -/
theorem test_hmac_long_key :
    (exec .hmac (accept 2 { State.reset with keyLen := 65 }) |> seen id) =
      some { State.reset with keyLen := 65, lastop := 2, errcode := 3, err := true, done := true } := by decide +kernel

/-- V-TR-12: o = 15, the top bit of d[15] masked. -/
theorem test_trunc_offset_15 :
    (exec .trunc (accept 3 { State.reset with digest := #v[0, 0, 0, 0x000000AB, 0x0000000F] }) |> seen results) =
      some (0x00003002, 0x2B000000, 0x00420288, 0x1F6) := by decide +kernel

/-- V-TR-6: five digits only. -/
theorem test_trunc_short_code :
    (exec .trunc (accept 3 { State.reset with digest := #v[0x0001869F, 0, 0, 0, 0] }) |> seen fun t =>
      (results t, codeString t, legacyString t)) =
      some ((0x00003002, 0x0001869F, 0x00099999, 0x105), ['0', '9', '9', '9', '9', '9'],
        ['9', '9', '9', '9', '9']) := by decide +kernel

/-- Section 1.2, count 1 (RFC 4226 Appendix D). -/
theorem test_hotp_count_1 :
    (exec .hotp (accept 4 (keyed { State.reset with counterLo := 1 })) |> seen fun t =>
      (beNat (digestBytes t), results t)) =
      some (0x75a48a19d4cbe100644e8ac1397eea747a2d33ab, 0x00004002, 0x41397EEA, 0x00287082, 0x1B6) := by decide +kernel

/-- V-HO-6. -/
theorem test_hotp_no_key :
    (exec .hotp (accept 4 State.reset) |> seen id) =
      some { State.reset with lastop := 4, errcode := 3, err := true, done := true } := by decide +kernel

/-- Section 1.4, T = 20000000000 (RFC 6238 Appendix B). -/
theorem test_totp_time_hi :
    (exec .totp (accept 5 (keyed { State.reset with timeHi := 4, timeLo := 0xA817C800 })) |> seen fun t =>
      (counterOf t, results t)) =
      some (0x0000000027BC86AA, 0x00005002, 0x575783AA, 0x00353130, 0x1A6) := by decide +kernel

/-- V-TO-7: an illegal key leaves the counter. -/
theorem test_totp_no_key :
    (exec .totp (accept 5 { State.reset with timeLo := 59, counterLo := 7 }) |> seen fun t =>
      (counterOf t, statusWord t)) = some (7, 0x00005306) := by decide +kernel

/-- V-CT-2 and V-CT-3: the key, the length and the results go; CTRL and WBUSY stay. -/
theorem test_clear :
    (exec .clear (accept 15 (keyed { State.reset with ie := true, wbusy := true, trunc := 5, valid := true }))
      |> seen id) = some { State.reset with ie := true, wbusy := true, lastop := 15, done := true } := by decide +kernel

/-- V-CT-4. -/
theorem test_reserved_7 :
    (exec .reserved7 (accept 7 State.reset) |> seen statusWord) = some 0x00007106 := by decide +kernel

/-- V-CT-5. -/
theorem test_illegalRsv :
    (exec (.illegalRsv 1 5) (accept 0x15 State.reset) |> seen statusWord) = some 0x00005106 := by decide +kernel

/-- V-RG-5: while BUSY a KEYLEN write is dropped, a CMD write is dropped, and STATUS reads 0x00005009. -/
theorem test_busy_window :
    (runSteps 4 (idleAt [.host (writeReq 0x0C 5), .host (writeReq 0x14 0), .host (writeReq 0x0C 4), .host (readReq 0x10)])
      |> seen fun t => (t.resp, t.eng)) = some (some ⟨some 0x00005009, false⟩, .busy 5 true) := by decide +kernel

/-- V-RG-3: a read in the reserved range. -/
theorem test_reserved_read :
    (step (idleAt [.host (readReq 0x94)]) |> seen (·.resp)) = some (some ⟨some 0, true⟩) := by decide +kernel

/-- V-RG-6: one write-1-to-clear at a time. -/
theorem test_status_write :
    statusWord (clearStatus 2 { State.reset with lastop := 5, errcode := 2, err := true, done := true, wbusy := true }) =
      0x0000520C := by decide +kernel

/-- What `withFetchWord` places is what the next step runs, right after reset. -/
theorem test_fetch_word : (step (State.reset.withFetchWord 32 7) |> seen statusWord) = some 0x00007106 := by
  decide +kernel

/-! ### Witnesses: the hypotheses of each statement hold together somewhere -/

theorem witness_EncodedCommandDecodesToItself : Instr.nop.WellFormed ∧ (Instr.illegalRsv 0xFFFFFFF 0xF).WellFormed := by
  decide

theorem witness_EveryWordIsTheWordOfOneCommand :
    Instr.reservedE.WellFormed ∧ encode .reservedE = 0x0000000E := by decide

theorem witness_StepRunsTheAcceptedCommand :
    Instr.totp.WellFormed ∧ (busyAt []).eng = .busy (opField .totp) (isLegalCommand .totp) ∧ (busyAt []).turns = [] ∧
      (busyAt [.engine]).turns = [.engine] := by decide

theorem witness_CmdWriteThenEngineRunsTheDecodedCommand :
    busy (idleAt [.host (writeReq 0x0C 5), .engine]) = false ∧
      (idleAt [.host (writeReq 0x0C 5), .engine]).turns = [.host (writeReq 0x0C 5), .engine] := by decide

theorem witness_AcceptanceOfACommand :
    busy (idleAt [.host (writeReq 0x0C 15)]) = false ∧
      (idleAt [.host (writeReq 0x0C 15)]).turns = [.host (writeReq 0x0C 15)] := by decide

theorem witness_CommandWriteWhileBusyIsDropped :
    busy (busyAt [.host (writeReq 0x0C 4)]) = true ∧
      (busyAt [.host (writeReq 0x0C 4)]).turns = [.host (writeReq 0x0C 4)] := by decide

/-- The first and the last offset of each locked range, busy; and an idle block. -/
theorem witness_LockedRegistersKeepTheirValueWhileBusy :
    (∀ off ∈ [0x0C#8, 0x14#8, 0x2C#8, 0x40#8, 0x90#8], off.toNat % 4 = 0 ∧
      (off.toNat = 0x0C ∨ 0x14 ≤ off.toNat ∧ off.toNat ≤ 0x2C ∨ 0x40 ≤ off.toNat ∧ off.toNat ≤ 0x90) ∧
      busy (busyAt [.host (writeReq off 1)]) = true ∧
      (busyAt [.host (writeReq off 1)]).turns = [.host (writeReq off 1)]) ∧ busy State.reset = false := by decide

theorem witness_StatusWriteClearsTheNamedBits :
    (busyAt [.host (writeReq 0x10 0xE)]).turns = [.host (writeReq 0x10 0xE)] ∧ (0b0111 : BitVec 4) ≠ 0b1111 ∧
      (busyAt [.host ⟨true, 0x10, 0xE, 0b0111⟩]).turns = [.host ⟨true, 0x10, 0xE, 0b0111⟩] ∧ (0x11 : BitVec 8).toNat % 4 ≠ 0 ∧
      (busyAt [.host (writeReq 0x11 0xE)]).turns = [.host ⟨true, 0x11, 0xE, 0b1111⟩] := by decide

theorem witness_CtrlWriteSetsIeAlsoWhileBusy :
    (busyAt [.host (writeReq 0x08 1)]).turns = [.host (writeReq 0x08 1)] ∧
      (idleAt [.host (readReq 0x08)]).turns = [.host (readReq 0x08)] := by decide

theorem witness_IdAndVersionNeverChange :
    (idleAt [.host (readReq 0x00)]).turns = [.host (readReq 0x00)] ∧
      (idleAt [.host (readReq 0x04)]).turns = [.host (readReq 0x04)] ∧
      (idleAt [.host (writeReq 0x00 9)]).turns = [.host (writeReq 0x00 9)] ∧
      (idleAt [.host (writeReq 0x04 9)]).turns = [.host (writeReq 0x04 9)] := by decide

theorem witness_ResultRegistersIgnoreWrites :
    0x30#8 ∈ [0x30#8, 0x34#8, 0x38#8, 0x3C#8] ∧ 0x3C#8 ∈ [0x30#8, 0x34#8, 0x38#8, 0x3C#8] ∧
      (busyAt [.host (writeReq 0x3C 9)]).turns = [.host (writeReq 0x3C 9)] := by decide

/-- An aligned defined offset, the first and the last reserved one, a misaligned one, a partial write. -/
theorem witness_BadAccessesGetErrorAndDoNothing :
    (step (idleAt [.host (readReq 0x90)]) |> seen fun t => t.resp.map (·.err)) = some (some false) ∧
      (∀ q ∈ [readReq 0x94, readReq 0xFC, writeReq 0x02 1, ⟨true, 0x10, 1, 0b0011⟩],
        (step (idleAt [.host q]) |> seen fun t => t.resp.map (·.err)) = some (some true)) := by decide +kernel

theorem witness_MisalignedReadsInTheReservedRangeReturnZero :
    (0x95 : BitVec 8).toNat % 4 ≠ 0 ∧ 0x94 ≤ (0x95 : BitVec 8).toNat ∧ (0xFB : BitVec 8).toNat % 4 ≠ 0 ∧
      (0xFB : BitVec 8).toNat ≤ 0xFC ∧ (idleAt [.host (readReq 0x95)]).turns = [.host (readReq 0x95)] := by decide

theorem witness_ReadsChangeNoState :
    (readReq 0xFE).write = false ∧ (idleAt [.host (readReq 0xFE)]).turns = [.host (readReq 0xFE)] := by decide

theorem witness_WrittenRegistersReadBack :
    busy State.reset = false ∧
      (∀ off ∈ [0x18#8, 0x2C#8, 0x80#8, 0x90#8], off.toNat % 4 = 0 ∧
        (0x18 ≤ off.toNat ∧ off.toNat ≤ 0x2C ∨ 0x80 ≤ off.toNat ∧ off.toNat ≤ 0x90)) ∧
      ∀ off ∈ [0x40#8, 0x7C#8], off.toNat % 4 = 0 ∧ 0x40 ≤ off.toNat ∧ off.toNat ≤ 0x7C := by decide

theorem witness_ReservedBitsReadZeroAndIgnoreWrites : busy State.reset = false ∧ 16 ≤ (0x10 : Word).toNat := by decide

theorem witness_KeyIsInvisibleToTheHost :
    (keyed (idleAt [.host (readReq 0x40), .host (writeReq 0x40 7)])).turns =
      [readReq 0x40, writeReq 0x40 7].map Turn.host ++ [] := by decide

/-- The first and the last address of the window select it, and the next one does not. -/
theorem witness_AddressDecodingSelectsTheWindow :
    (Config.base ≤ Config.base ∧ Config.base < Config.base + 256) ∧
      (Config.base ≤ Config.base + 255 ∧ Config.base + 255 < Config.base + 256) ∧
      ¬(Config.base ≤ Config.base + 256 ∧ Config.base + 256 < Config.base + 256) := by omega

/-- One witness for each of the three errors. -/
theorem witness_ErrorCompletionWritesOnlyStatus :
    State.reset.err = false ∧ (exec .reserved6 State.reset |> seen fun t => (t.err, t.errcode)) = some (true, 1) ∧
      (timed 0 29 0 0xFFFFFFFF).err = false ∧
      (exec .encode (timed 0 29 0 0xFFFFFFFF) |> seen fun t => (t.err, t.errcode)) = some (true, 2) ∧
      (exec .hmac State.reset |> seen fun t => (t.err, t.errcode)) = some (true, 3) := by decide +kernel

theorem witness_InterruptFollowsDoneAndEnable :
    (exec .nop { State.reset with ie := true } |> seen irq) = some true ∧
      (step { idleAt [.host (writeReq 0x08 1)] with done := true } |> seen irq) = some true ∧
      (step { idleAt [.host (writeReq 0x10 2)] with done := true, ie := true } |> seen irq) = some false ∧
      (0x2 : Word)[1] = true ∧ busy { idleAt [.host (writeReq 0x0C 0)] with done := true } = false ∧
      (step { idleAt [.host (writeReq 0x0C 0)] with done := true, ie := true } |> seen irq) = some false ∧
      (readReq 0x14).off ∉ [0x08#8, 0x0C#8, 0x10#8] ∧
      (step { idleAt [.host (readReq 0x14)] with done := true, ie := true } |> seen irq) = some true := by decide +kernel

/-- In range at both ends, out of range at both ends (V-EN-4, V-EN-12, V-EN-5, V-EN-13). -/
theorem witness_EncodeWritesTheCounter :
    (timeOf (timed 0 30 0 0xFFFFFFFF) : Int) / effectiveStep (timed 0 30 0 0xFFFFFFFF) +
        offsetOfCounter (timed 0 30 0 0xFFFFFFFF) = 0 ∧
      (timeOf (timed 0xFFFFFFFF 0xFFFFFFFF 1 0) : Int) / effectiveStep (timed 0xFFFFFFFF 0xFFFFFFFF 1 0) +
        offsetOfCounter (timed 0xFFFFFFFF 0xFFFFFFFF 1 0) = 2 ^ 64 - 1 ∧
      (timeOf (timed 0 29 0 0xFFFFFFFF) : Int) / effectiveStep (timed 0 29 0 0xFFFFFFFF) +
        offsetOfCounter (timed 0 29 0 0xFFFFFFFF) = -1 ∧
      (timeOf (timed 0xFFFFFFFF 0xFFFFFFFF 1 1) : Int) / effectiveStep (timed 0xFFFFFFFF 0xFFFFFFFF 1 1) +
        offsetOfCounter (timed 0xFFFFFFFF 0xFFFFFFFF 1 1) = 2 ^ 64 := by decide +kernel

/-- Both times in range; both below 0; both past 2^64 - 1. -/
theorem witness_EncodeIsMonotoneInTime :
    (timed 0 29 0 0).err = false ∧ timeOf (timed 0 29 0 0) ≤ timeOf (timed 0 30 0 0) ∧
      (exec .encode (timed 0 29 0 0) |> seen (·.err)) = some false ∧
      (exec .encode (timed 0 30 0 0) |> seen (·.err)) = some false ∧
      timeOf (timed 0 0 0 0xFFFFFFFF) ≤ timeOf (timed 0 29 0 0xFFFFFFFF) ∧
      (exec .encode (timed 0 29 0 0xFFFFFFFF) |> seen (·.err)) = some true ∧
      (timeOf (timed 0 29 0 0xFFFFFFFF) / effectiveStep (timed 0 29 0 0xFFFFFFFF) : Nat) +
        offsetOfCounter (timed 0 29 0 0xFFFFFFFF) < 0 ∧
      (exec .encode (timed 0xFFFFFFFF 0xFFFFFFFF 1 1) |> seen (·.err)) = some true ∧
      0 ≤ (timeOf (timed 0xFFFFFFFF 0xFFFFFFFF 1 1) / effectiveStep (timed 0xFFFFFFFF 0xFFFFFFFF 1 1) : Nat) +
        offsetOfCounter (timed 0xFFFFFFFF 0xFFFFFFFF 1 1) := by decide +kernel

theorem witness_Sha1PaddingAndBlocks : 8 * ([] : List Byte).length < 2 ^ 64 ∧
    8 * (List.replicate 56 0x61#8).length < 2 ^ 64 := by decide

theorem witness_MessageScheduleRecurrence : (List.replicate 64 0x61#8).length = 64 := by decide

theorem witness_KeyIsTheFirstLenBytes :
    1 ≤ (1#7).toNat ∧ (1#7).toNat ≤ 64 ∧ 1 ≤ (64#7).toNat ∧ (64#7).toNat ≤ 64 ∧ 63 < (64#7).toNat := by decide

/-- Two different key buffers that agree in the first three bytes. -/
theorem witness_KeyBytesPastLenAreIgnored :
    (∀ k, k < ({ State.reset with keyLen := 3, key := State.reset.key.set 0 0x01020304 } : State).keyLen.toNat →
      ((State.reset.key.set 0 0x01020304).toList.getD (k / 4) 0).extractLsb' (24 - 8 * (k % 4)) 8 =
        ((State.reset.key.set 0 0x010203FF).toList.getD (k / 4) 0).extractLsb' (24 - 8 * (k % 4)) 8) ∧
      State.reset.key.set 0 0x01020304 ≠ State.reset.key.set 0 0x010203FF := by decide +kernel

theorem witness_HmacIsFourCompressions :
    1 ≤ (keyed State.reset).keyLen.toNat ∧ (keyed State.reset).keyLen.toNat ≤ 64 := by decide

theorem witness_HmacWritesTheDigest :
    (1 ≤ (1#7).toNat ∧ (1#7).toNat ≤ 64) ∧ (1 ≤ (64#7).toNat ∧ (64#7).toNat ≤ 64) ∧
      ((0#7).toNat = 0 ∨ 64 < (0#7).toNat) ∧ ((65#7).toNat = 0 ∨ 64 < (65#7).toNat) := by decide

theorem witness_TruncatedValueIsASliceOfTheDigest :
    (exec .trunc State.reset |> seen (·.trunc)) = some 0 := by decide +kernel

theorem witness_HotpWritesDigestAndResults :
    (1 ≤ (keyed State.reset).keyLen.toNat ∧ (keyed State.reset).keyLen.toNat ≤ 64) ∧
      (State.reset.keyLen.toNat = 0 ∨ 64 < State.reset.keyLen.toNat) := by decide

/-- Out of range; in range without a key; in range with one. -/
theorem witness_TotpWritesCounterDigestAndResults :
    ¬(0 ≤ (timeOf (timed 0 29 0 0xFFFFFFFF) : Int) / effectiveStep (timed 0 29 0 0xFFFFFFFF) +
        offsetOfCounter (timed 0 29 0 0xFFFFFFFF)) ∧
      (0 ≤ (timeOf (keyed State.reset) : Int) / effectiveStep (keyed State.reset) + offsetOfCounter (keyed State.reset) ∧
        (timeOf (keyed State.reset) : Int) / effectiveStep (keyed State.reset) + offsetOfCounter (keyed State.reset) ≤
          2 ^ 64 - 1) ∧
      State.reset.keyLen.toNat = 0 ∧ 1 ≤ (keyed State.reset).keyLen.toNat ∧ (keyed State.reset).keyLen.toNat ≤ 64 := by
  decide +kernel

theorem witness_HotpEqualsHmacThenTrunc :
    busy (keyed State.reset) = false ∧ 1 ≤ (keyed State.reset).keyLen.toNat ∧
      (keyed State.reset).keyLen.toNat ≤ 64 := by decide

/-- ENCODE succeeds with a legal key, and ENCODE fails. -/
theorem witness_TotpEqualsEncodeThenHotp :
    busy (keyed State.reset) = false ∧
      (runSteps 2 { keyed State.reset with turns := [.host (writeReq 0x0C 1), .engine] } |> seen (·.err)) = some false ∧
      1 ≤ (keyed State.reset).keyLen.toNat ∧ (keyed State.reset).keyLen.toNat ≤ 64 ∧
      busy { State.reset with offsetReg := 0xFFFFFFFF } = false ∧
      (runSteps 2 { State.reset with offsetReg := 0xFFFFFFFF, turns := [.host (writeReq 0x0C 1), .engine] }
        |> seen (·.err)) = some true := by decide +kernel

/-- The case that R204 word for word takes in and R200 gives otherwise: ENCODE succeeds, no key. -/
theorem witness_TotpEqualsEncodeThenHotpWhateverTheKey :
    busy State.reset = false ∧
      (runSteps 2 (idleAt [.host (writeReq 0x0C 1), .engine]) |> seen (·.err)) = some false := by decide +kernel

/-- The bounds of both ways a word is illegal. -/
theorem witness_ReservedCommandsCompleteWithIllegalCmd :
    busy State.reset = false ∧ (0x10 : Word).toNat / 16 ≠ 0 ∧ 6 ≤ (0x6 : Word).toNat % 16 ∧ (0xE : Word).toNat % 16 ≤ 14 ∧
      Instr.reservedE ∈ [.reserved6, .reserved7, .reserved8, .reserved9, .reservedA, .reservedB, .reservedC, .reservedD,
        .reservedE] := by decide

/-- A block that holds the code of V-TR-6 and has a command in progress. -/
def coded : State :=
  { State.reset with
    eng := .busy 4 true
    lastop := 4
    trunc := 0x1869F
    code := 0x1869F
    codeBcd := 0x099999
    legacyLen := 5
    valid := true }

theorem coded_inv : BlockInv coded where
  errIffCode := by decide
  errcodeKnown := by decide
  busyFlags := by
    intro op ok h
    simp only [coded, Engine.busy.injEq] at h
    obtain ⟨rfl, rfl⟩ := h
    decide
  codeOfTrunc := by decide
  bcdOfCode := by decide
  legacyOfTrunc := by decide +kernel
  emptyResults := by decide

theorem witness_InvariantIsKeptByEveryStep :
    BlockInv coded ∧ step coded = exec .hotp coded ∧ (step coded |> seen (·.err)) = some true :=
  ⟨coded_inv, rfl, by decide +kernel⟩

theorem witness_ResetRestoresTheResetTable :
    (busyAt [.reset (some (readReq 0x10))]).turns = [.reset (some (readReq 0x10))] ∧
      (busyAt [.reset none]).turns = [.reset none] := by decide

theorem witness_IdleBlockChangesNothingOnItsOwn :
    (idleAt []).eng = .idle ∧ (idleAt []).turns = [] ∧ (idleAt [.engine]).turns = [.engine] := by decide

theorem witness_RegistersAreStableWhileBusy :
    busy (busyAt [.host (writeReq 0x40 1)]) = true ∧
      (busyAt [.host (writeReq 0x40 1)]).turns = [writeReq 0x40 1].map Turn.host ++ [] := by decide

theorem witness_BusyCommandCompletesWhateverTheHostDoes :
    Instr.totp.WellFormed ∧ (busyAt [.host (writeReq 0x10 6)]).eng = .busy (opField .totp) (isLegalCommand .totp) ∧
      (busyAt [.host (writeReq 0x10 6)]).err = false ∧ (busyAt [.host (writeReq 0x10 6)]).errcode = 0 ∧
      (busyAt [.host (writeReq 0x10 6)]).turns = [writeReq 0x10 6].map Turn.host := by decide

/-- A STATUS write, and the first and the last offset of each locked range. -/
theorem witness_SameCycleTransactionComesFirst :
    (busyAt []).eng = .busy 5 true ∧
      (busyAt [.host (writeReq 0x10 2), .engine]).turns = [.host (writeReq 0x10 2), .engine] ∧
      ∀ off ∈ [0x0C#8, 0x14#8, 0x2C#8, 0x40#8, 0x90#8], off.toNat % 4 = 0 ∧
        (off.toNat = 0x0C ∨ 0x14 ≤ off.toNat ∧ off.toNat ≤ 0x2C ∨ 0x40 ≤ off.toNat ∧ off.toNat ≤ 0x90) ∧
        (busyAt [.host (writeReq off 0), .engine]).turns = [.host (writeReq off 0), .engine] := by decide

theorem witness_WaitEndsWithDone :
    busy (busyAt (Stmt.turns .wait)) = true ∧ (busyAt (Stmt.turns .wait)).turns = Stmt.turns .wait ++ [] := by decide

/-- The empty key, and a key of three bytes. -/
theorem witness_LdkeyLoadsTheKey :
    busy (idleAt (Stmt.turns (.ldkey []))) = false ∧ ([] : List Byte).length ≤ 64 ∧
      (idleAt (Stmt.turns (.ldkey []))).turns = Stmt.turns (.ldkey []) ∧
      busy (idleAt (Stmt.turns (.ldkey [1, 2, 3]))) = false ∧ ([1, 2, 3] : List Byte).length ≤ 64 ∧
      (idleAt (Stmt.turns (.ldkey [1, 2, 3]))).turns = Stmt.turns (.ldkey [1, 2, 3]) := by decide

theorem witness_LegacyStringIsTheLastSixCharacters : BlockInv coded ∧ coded.valid = true := ⟨coded_inv, rfl⟩

theorem witness_CodeStringIsSixPaddedDigits : BlockInv coded := coded_inv

/-- The shortest secret, and none. -/
theorem witness_HostTotpReturnsTheCode :
    busy State.reset = false ∧ 1 ≤ [0#8].length ∧ ([] : List Byte) = [] := by decide

/-- The first step, where there is no slot before it, and the second. -/
theorem witness_HostVerifyAcceptsTheWindow :
    busy State.reset = false ∧ 1 ≤ [0#8].length ∧ ¬1 ≤ (29#64).toNat / 30 ∧ 1 ≤ (30#64).toNat / 30 := by decide

/-! ### The host's procedures -/

/-- The RFC key as the host's secret. -/
def rfcSecret : List Byte := "12345678901234567890".toList.map fun c => BitVec.ofNat 8 c.toNat

/-- Section 1.4, T = 1234567890: 005924. -/
theorem test_host_totp :
    hostTotp .padded rfcSecret 1234567890 State.reset = some (.ok ['0', '0', '5', '9', '2', '4']) := by decide +kernel

/-- P3: the candidate of the slot before is accepted at T = 1111111111. -/
theorem test_host_verify :
    hostVerify .padded rfcSecret ['0', '8', '1', '8', '0', '4'] 1111111111 State.reset = some (.ok true) := by
  decide +kernel

end Sys2Proof.Tests
end

/-! ## State and host port

Proofs of O20, O45, O44, O17, O18, O19, O32, O5, O10, O11, O12 and O47: first what a read and a write of a register do
at the port, then each statement with the lemmas it needs. -/

namespace Sys2Proof.Machine

/-! ### Reads and writes of registers -/

/-- A transaction at a misaligned offset reaches no register (20_memory.md R74). -/
theorem regAt_of_misaligned {off : BitVec 8} (h : off.toNat % 4 ≠ 0) : regAt off = none := by
  have hm : misaligned off = true := by
    simp only [misaligned, bne_iff_ne, ne_eq]
    intro h0
    exact h (by simpa [BitVec.extractLsb'_toNat] using congrArg BitVec.toNat h0)
  simp [regAt, hm]

/-- A write with a partial strobe, or where no register is, gets ERROR and does nothing (20_memory.md R73 to R75). -/
theorem serve_bad_write {off : BitVec 8} {strb : BitVec 4} (v : Word) (s : State)
    (h : strb ≠ 0b1111 ∨ regAt off = none) :
    serve ⟨true, off, v, strb⟩ s = { s with resp := some ⟨none, true⟩ } := by
  have herr : busError ⟨true, off, v, strb⟩ s = { s with resp := some ⟨none, true⟩ } := rfl
  rcases serve_cases ⟨true, off, v, strb⟩ s with hs | ⟨_, _, hw, _⟩ | ⟨_, hr, _, hstrb, _⟩
  · rw [hs, herr]
  · exact absurd hw (by simp)
  · rcases h with h | h
    · exact absurd hstrb h
    · exact absurd (hr.symm.trans h) (by simp)

/-- A write whose stored effect does not depend on some bits of the value does not depend on them at the port, dropped
or not. -/
theorem step_write_congr {off : BitVec 8} {r : Reg} {v v' : Word} (s : State) (rest : List Turn)
    (hr : regAt off = some r) (hv : ∀ u, storeReg r v u = storeReg r v' u) :
    step { s with turns := .host (writeReq off v) :: rest } =
      step { s with turns := .host (writeReq off v') :: rest } := by
  have hw : ∀ u, writeReg r v u = writeReg r v' u := fun u => by simp [writeReg, hv]
  rw [step_host rfl, step_host rfl, serve_write _ rfl hr rfl, serve_write _ rfl hr rfl]
  exact congrArg (fun u : State => Host.Outcome.next { u with resp := some ⟨none, false⟩ }) (hw _)

/-- The first transaction of a run is served. -/
theorem run_host {s : State} {q : BusReq} {rest : List Turn} (k : Nat) (ht : s.turns = .host q :: rest) :
    runSteps (k + 1) s = runSteps k (serve q { s with turns := rest }) :=
  run_succ k (step_host ht)

/-- What a register reads does not depend on the model's own fields. -/
theorem readReg_model_fields (r : Reg) (s : State) (ts : List Turn) (resp : Option BusResp) :
    readReg r { s with turns := ts, resp := resp } = readReg r s := by
  cases r <;> rfl

/-- A store neither reads nor writes the schedule. -/
theorem storeReg_turns (r : Reg) (v : Word) (s : State) (ts : List Turn) :
    storeReg r v { s with turns := ts } = { storeReg r v s with turns := ts } := by
  cases r <;> rfl

/-- On an idle block a write and then a read of one register answers what the register reads after the store. -/
theorem read_after_write {s : State} {off : BitVec 8} {r : Reg} {v w : Word} {rest : List Turn}
    (hr : regAt off = some r) (hw : readReg r (storeReg r v s) = w) (hb : busy s = false)
    (ht : s.turns = .host (writeReq off v) :: .host (readReq off) :: rest) :
    ∃ t, runSteps 2 s = .next t ∧ t.resp = some ⟨some w, false⟩ := by
  have hwrite : step s =
      .next { storeReg r v s with turns := .host (readReq off) :: rest, resp := some ⟨none, false⟩ } := by
    rw [step_write s off r v _ hr (.inr hb) ht, storeReg_turns r v s]
  refine ⟨_, ((run_succ 1 hwrite).trans (run_one _)).trans (step_read _ off r rest hr rfl), ?_⟩
  rw [readReg_model_fields r (storeReg r v s), hw]

/-! ### Words with reserved bits -/

/-- A mask over two fields masks each field. -/
theorem append_and_append {m n : Nat} (a c : BitVec m) (b d : BitVec n) :
    (a ++ b) &&& (c ++ d) = (a &&& c) ++ (b &&& d) := by
  ext i hi
  simp only [BitVec.getElem_and, BitVec.getElem_append]
  split <;> rfl

/-- A field in the low bits of a word leaves the bits above it 0. -/
theorem setWidth_and_eq_zero {n : Nat} (x : BitVec n) (mask : Word)
    (h : ∀ i : Fin 32, i.val < n → mask.getLsbD i = false) : x.setWidth 32 &&& mask = 0 := by
  ext i hi
  by_cases hn : i < n
  · have hm : mask[i] = false := (BitVec.getLsbD_eq_getElem hi).symm.trans (h ⟨i, hi⟩ hn)
    simp [hm]
  · simp [BitVec.getLsbD_of_ge x i (by omega)]

/-- The reserved bits of STATUS read 0 (10_state.md R47). -/
theorem statusWord_reserved (s : State) : statusWord s &&& 0xFFFF00F0 = 0 := by
  have hfields : ∀ (op code : BitVec 4) (wb e d b : BitVec 1),
      (0#16 ++ op ++ code ++ 0#4 ++ wb ++ e ++ d ++ b) &&&
        (0xFFFF#16 ++ 0#4 ++ 0#4 ++ 0xF#4 ++ 0#1 ++ 0#1 ++ 0#1 ++ 0#1) = 0 := by
    intro op code wb e d b
    simp only [append_and_append, BitVec.zero_and, BitVec.and_zero]
    decide
  exact hfields _ _ _ _ _ _

/-- The reserved bits of CODE_INFO read 0 (10_state.md R45, R47). -/
theorem codeInfoWord_reserved (s : State) : codeInfoWord s &&& 0xFFFFFE08 = 0 := by
  have hfields : ∀ (v : BitVec 1) (o : BitVec 4) (n : BitVec 3),
      (0#23 ++ v ++ o ++ 0#1 ++ n) &&& (0x7FFFFF#23 ++ 0#1 ++ 0#4 ++ 1#1 ++ 0#3) = 0 := by
    intro v o n
    simp only [append_and_append, BitVec.zero_and, BitVec.and_zero]
    decide
  exact hfields _ _ _

/-- The STATUS word as a number (10_state.md, layout of STATUS). -/
theorem statusWord_toNat (s : State) :
    (statusWord s).toNat = (busy s).toNat + 2 * s.done.toNat + 4 * s.err.toNat + 8 * s.wbusy.toNat +
      256 * s.errcode.toNat + 4096 * s.lastop.toNat := by
  simp only [statusWord, toNat_append_add, BitVec.toNat_ofBool, BitVec.toNat_ofNat]
  omega

/-- The CODE_INFO word as a number (10_state.md R45). -/
theorem codeInfoWord_toNat (s : State) :
    (codeInfoWord s).toNat = s.legacyLen.toNat + 16 * s.tofs.toNat + 256 * s.valid.toNat := by
  simp only [codeInfoWord, toNat_append_add, BitVec.toNat_ofBool, BitVec.toNat_ofNat]
  omega

/-! ### No sequence of register accesses tells two keys apart -/

/-- What a host reads does not depend on the key (10_state.md R40). -/
theorem readReg_key_update (r : Reg) (s : State) (k : Vector Word 16) :
    readReg r { s with key := k } = readReg r s := by
  cases r <;> rfl

/-- A store acts alike, but for the key, on two blocks that differ in the key. -/
theorem storeReg_key_update (r : Reg) (v : Word) (s : State) (k : Vector Word 16) :
    ∃ k', storeReg r v { s with key := k } = { storeReg r v s with key := k' } := by
  cases r with
  | key j => exact ⟨k.set j v, rfl⟩
  | _ => exact ⟨k, rfl⟩

/-- So does a write at the port, dropped or not. -/
theorem writeReg_key_update (r : Reg) (v : Word) (s : State) (k : Vector Word 16) :
    ∃ k', writeReg r v { s with key := k } = { writeReg r v s with key := k' } := by
  have hbusy : busy { s with key := k } = busy s := rfl
  unfold writeReg
  rw [hbusy]
  split
  · exact ⟨k, rfl⟩
  · exact storeReg_key_update r v s k

/-- An ERROR response does not depend on the key. -/
theorem busError_key_update (q : BusReq) (s : State) (k : Vector Word 16) :
    busError q { s with key := k } = { busError q s with key := k } := by
  unfold busError
  split
  · rfl
  · split <;> rfl

/-- A transaction has the same response, and leaves the same state but for the key, in two blocks that differ in the
key only (10_state.md R40, 60_exceptions.md R235). -/
theorem serve_key_update (q : BusReq) (s : State) (k : Vector Word 16) :
    ∃ k', serve q { s with key := k } = { serve q s with key := k' } := by
  unfold serve
  cases regAt q.off with
  | none => exact ⟨k, busError_key_update q s k⟩
  | some r =>
    dsimp only
    split
    · split
      · obtain ⟨k', h⟩ := writeReg_key_update r q.wdata s k
        exact ⟨k', by rw [h]⟩
      · exact ⟨k, busError_key_update q s k⟩
    · exact ⟨k, by rw [readReg_key_update]⟩

/-- Settles O20, by induction on the transactions. -/
theorem keyIsInvisibleToTheHost : Obligations.KeyIsInvisibleToTheHost := by
  intro qs
  induction qs with
  | nil => exact fun s k rest _ => ⟨s, k, rfl, rfl⟩
  | cons q qs ih =>
    intro s k rest ht
    obtain ⟨k₁, h₁⟩ := serve_key_update q { s with turns := qs.map .host ++ rest } k
    obtain ⟨t, k', hrun, hrun'⟩ := ih (serve q { s with turns := qs.map .host ++ rest }) k₁ rest (serve_turns q _)
    refine ⟨t, k', (run_host _ ht).trans hrun, ?_⟩
    calc runSteps (qs.length + 1) { s with key := k }
        = runSteps qs.length (serve q { s with key := k, turns := qs.map .host ++ rest }) :=
          run_host (s := { s with key := k }) _ ht
      _ = _ := (congrArg (runSteps qs.length) h₁).trans hrun'

/-! ### Every step keeps the invariant of the block -/

/-- The invariant follows results that stand in a state of the invariant, and flags of its own. -/
theorem BlockInv.of_sameResults {s t : State} (hs : BlockInv s) (hres : SameResults s t)
    (herr : t.err = true ↔ t.errcode ≠ 0) (hcode : t.errcode.toNat ≤ 3)
    (hbusy : ∀ op ok, t.eng = .busy op ok →
      t.done = false ∧ t.err = false ∧ t.lastop = op ∧ (ok = true → legal (op.setWidth 32) = true)) :
    BlockInv t where
  errIffCode := herr
  errcodeKnown := hcode
  busyFlags := hbusy
  codeOfTrunc := by rw [hres.code, hres.trunc]; exact hs.codeOfTrunc
  bcdOfCode := by rw [hres.code, hres.codeBcd]; exact hs.bcdOfCode
  legacyOfTrunc := by rw [hres.valid, hres.legacyLen, hres.trunc]; exact hs.legacyOfTrunc
  emptyResults := by rw [hres.valid, hres.trunc, hres.legacyLen, hres.tofs]; exact hs.emptyResults

/-- The verdict of a word depends on the OP alone where it is positive (30_encoding.md R93). -/
theorem legal_wordOp {w : Word} (h : legal w = true) : legal ((wordOp w).setWidth 32) = true := by
  have hop : ∀ op : BitVec 4, (decide (op.toNat ≤ 5) || op == 0xF#4) = true → legal (op.setWidth 32) = true := by
    decide
  rw [legal, Bool.and_eq_true] at h
  exact hop _ h.2

/-- Acceptance keeps the invariant (40_command_model.md R111). -/
theorem BlockInv.accept {s : State} (w : Word) (hs : BlockInv s) : BlockInv (accept w s) := by
  refine hs.of_sameResults ⟨rfl, rfl, rfl, rfl, rfl, rfl⟩ (by simp) (by simp) fun op ok h => ?_
  obtain ⟨rfl, rfl⟩ := Engine.busy.inj h
  exact ⟨rfl, rfl, rfl, legal_wordOp⟩

/-- A STATUS write clears ERR together with ERRCODE, so it keeps the invariant (10_state.md R32, R34). -/
theorem BlockInv.clearStatus {s : State} (v : Word) (hs : BlockInv s) : BlockInv (clearStatus v s) := by
  refine hs.of_sameResults ⟨rfl, rfl, rfl, rfl, rfl, rfl⟩ ?_ ?_ fun op ok h => ?_
  · rw [clearStatus_err, clearStatus_errcode]
    cases v.getLsbD 2 <;> simp [hs.errIffCode]
  · rw [clearStatus_errcode]
    cases v.getLsbD 2 <;> simp [hs.errcodeKnown]
  · obtain ⟨hdone, herr, hop, hok⟩ := hs.busyFlags op ok h
    exact ⟨by simp [hdone], by simp [herr], hop, hok⟩

/-- So does every store of a host. -/
theorem BlockInv.storeReg {s : State} (r : Reg) (v : Word) (hs : BlockInv s) : BlockInv (storeReg r v s) := by
  cases r with
  | cmd => exact hs.accept v
  | status => exact hs.clearStatus v
  | _ => exact { hs with }

/-- So does every write at the port: a dropped one touches WBUSY only. -/
theorem BlockInv.writeReg {s : State} (r : Reg) (v : Word) (hs : BlockInv s) : BlockInv (writeReg r v s) := by
  unfold Machine.writeReg
  split
  · exact { hs with }
  · exact hs.storeReg r v

/-- So does every transaction, whatever its answer. -/
theorem BlockInv.serve {s : State} (q : BusReq) (hs : BlockInv s) : BlockInv (serve q s) := by
  rcases serve_cases q s with h | ⟨r, _, _, h⟩ | ⟨r, _, _, _, h⟩
  · obtain ⟨d, n, herr⟩ := busError_eq q s
    rw [h, herr]
    exact { hs with }
  · rw [h]
    exact { hs with }
  · have hw := hs.writeReg r q.wdata
    rw [h]
    exact { hw with }

/-- The results of a truncation meet the invariant (43_truncation.md R182 to R185). -/
theorem BlockInv.putTruncation {s : State} (d : List Byte) (hs : BlockInv s) : BlockInv (putTruncation d s) := by
  have htrunc : (BitVec.ofNat 31 (truncValue d)).toNat = truncValue d := by
    rw [BitVec.toNat_ofNat, Nat.mod_eq_of_lt (tv_lt d)]
  have hcode : (BitVec.ofNat 20 (codeOf (truncValue d))).toNat = codeOf (truncValue d) := by
    rw [BitVec.toNat_ofNat, Nat.mod_eq_of_lt]
    unfold codeOf
    omega
  have hbcd : (BitVec.ofNat 24 (bcdOf (codeOf (truncValue d)))).toNat = bcdOf (codeOf (truncValue d)) := by
    rw [BitVec.toNat_ofNat, Nat.mod_eq_of_lt (bcd_lt _)]
  have hlen : (BitVec.ofNat 3 (legacyLength (truncValue d))).toNat = legacyLength (truncValue d) := by
    rw [BitVec.toNat_ofNat, Nat.mod_eq_of_lt]
    unfold legacyLength
    omega
  exact {
    errIffCode := hs.errIffCode
    errcodeKnown := hs.errcodeKnown
    busyFlags := hs.busyFlags
    codeOfTrunc := by rw [putTruncation_code, putTruncation_trunc, hcode, htrunc]; rfl
    bcdOfCode := fun i hi => by rw [putTruncation_codeBcd, putTruncation_code, hbcd, hcode, bcd_digit _ i hi]
    legacyOfTrunc := fun _ => by rw [putTruncation_legacyLen, putTruncation_trunc, hlen, htrunc]; rfl
    emptyResults := fun h => absurd h (by simp) }

/-- The results that CLEAR leaves meet the invariant (44_totp_and_control.md R202). -/
theorem BlockInv.eraseAll {s : State} (hs : BlockInv s) : BlockInv (eraseAll s) :=
  { hs with
    codeOfTrunc := rfl
    bcdOfCode := fun i _ => by simp
    legacyOfTrunc := fun h => absurd h (by simp)
    emptyResults := fun _ => ⟨rfl, rfl, rfl⟩ }

/-- A mapped result that is no error comes from one that is none. -/
theorem exists_of_map_eq_ok {ε α β : Type} {f : α → β} {x : Except ε α} {b : β} (h : x.map f = .ok b) :
    ∃ a, x = .ok a ∧ f a = b := by
  cases x with
  | error e => exact absurd h (by simp [Except.map])
  | ok a => exact ⟨a, rfl, Except.ok.inj h⟩

/-- What HOTP leaves for a counter is a truncation of the block with its digest (43_truncation.md R187). -/
theorem hotpOfCounter_results {c : BitVec 64} {s u : State} (h : hotpOfCounter c s = .ok u) :
    ∃ d, u = putTruncation d (putDigest d s) := by
  obtain ⟨d, -, rfl⟩ := exists_of_map_eq_ok h
  exact ⟨d, rfl⟩

/-- What an EXEC_op does to the result registers: nothing, the truncation of some digest, or the erasure of CLEAR. -/
theorem execResult_results {i : Instr} {s u : State} (h : execResult i s = .ok u) :
    SameResults s u ∨ (∃ d, SameResults (putTruncation d s) u) ∨ SameResults (eraseAll s) u := by
  cases i <;> simp only [execResult, reduceCtorEq] at h
  case nop =>
    obtain rfl := Except.ok.inj h
    exact .inl (SameResults.refl _)
  case clear =>
    obtain rfl := Except.ok.inj h
    exact .inr (.inr (SameResults.refl _))
  case trunc =>
    obtain rfl := Except.ok.inj h
    exact .inr (.inl ⟨_, SameResults.refl _⟩)
  case encode =>
    obtain ⟨c, -, rfl⟩ := exists_of_map_eq_ok h
    exact .inl ⟨rfl, rfl, rfl, rfl, rfl, rfl⟩
  case hmac =>
    obtain ⟨d, -, rfl⟩ := exists_of_map_eq_ok h
    exact .inl ⟨rfl, rfl, rfl, rfl, rfl, rfl⟩
  case hotp =>
    obtain ⟨d, rfl⟩ := hotpOfCounter_results h
    exact .inr (.inl ⟨d, rfl, rfl, rfl, rfl, rfl, rfl⟩)
  case totp =>
    unfold totpResult at h
    split at h
    · exact absurd h (by simp)
    · obtain ⟨u', hu', rfl⟩ := exists_of_map_eq_ok h
      obtain ⟨d, rfl⟩ := hotpOfCounter_results hu'
      exact .inr (.inl ⟨d, rfl, rfl, rfl, rfl, rfl, rfl⟩)

/-- Every error has one of the numbers 1 to 3 (60_exceptions.md R221). -/
theorem CmdError.number_known (e : CmdError) : e.number ≠ 0 ∧ e.number.toNat ≤ 3 := by
  cases e <;> decide

/-- Every completion keeps the invariant (40_command_model.md R116, R117). -/
theorem BlockInv.exec {i : Instr} {s t : State} (hs : BlockInv s) (h : exec i s = .next t) : BlockInv t := by
  rw [exec_eq_complete] at h
  rcases complete_cases (execResult i s) s with ⟨u, hu, hnext⟩ | ⟨e, -, hnext⟩
  · obtain rfl := Host.Outcome.next.inj (hnext.symm.trans h)
    obtain ⟨-, -, -, herr, -, hcode, -, -, -, -⟩ := execResult_frame i s u hu
    have hres : ∃ v, BlockInv v ∧ SameResults v u := by
      rcases execResult_results hu with hr | ⟨d, hr⟩ | hr
      · exact ⟨s, hs, hr⟩
      · exact ⟨_, hs.putTruncation d, hr⟩
      · exact ⟨_, hs.eraseAll, hr⟩
    obtain ⟨v, hv, hvu⟩ := hres
    refine hv.of_sameResults (hvu.trans ⟨rfl, rfl, rfl, rfl, rfl, rfl⟩) ?_ ?_ fun _ _ hb => absurd hb (by simp)
    · rw [finish_err, finish_errcode, herr, hcode]
      exact hs.errIffCode
    · rw [finish_errcode, hcode]
      exact hs.errcodeKnown
  · obtain rfl := Host.Outcome.next.inj (hnext.symm.trans h)
    obtain ⟨hne, hle⟩ := e.number_known
    exact hs.of_sameResults ⟨rfl, rfl, rfl, rfl, rfl, rfl⟩ (iff_of_true rfl hne) hle
      fun _ _ hb => absurd hb (by simp)

/-- The engine's turn keeps the invariant. -/
theorem BlockInv.engineTurn {s t : State} (hs : BlockInv s) (h : engineTurn s = .next t) : BlockInv t := by
  cases heng : s.eng with
  | idle =>
    rw [engineTurn_idle heng] at h
    exact Host.Outcome.next.inj h ▸ hs
  | busy op ok =>
    rw [engineTurn_busy heng] at h
    exact hs.exec h

/-- A transaction at a bus address keeps the invariant, whether it selects the block or not. -/
theorem BlockInv.serveAt {s : State} (addr : Nat) (write : Bool) (wdata : Word) (wstrb : BitVec 4) (hs : BlockInv s) :
    BlockInv (serveAt addr write wdata wstrb s) := by
  rcases serveAt_cases addr write wdata wstrb s with ⟨off, _, h⟩ | ⟨_, h⟩
  · rw [h]
    exact hs.serve _
  · rw [h]
    exact { hs with }

/-- One read of a poll keeps the invariant. -/
theorem BlockInv.pollOnce {s : State} (off : BitVec 8) (mask val : Word) (hs : BlockInv s) :
    BlockInv (pollOnce off mask val s) := by
  have hread := hs.serve (readReq off)
  rcases pollOnce_cases off mask val s with ⟨_, h⟩ | ⟨_, h⟩
  · rw [h]
    exact hread
  · rw [h]
    exact { hread with }

/-- Settles O44: after reset every flag and every result register is 0. -/
theorem invariantHoldsAtReset : Obligations.InvariantHoldsAtReset where
  errIffCode := by decide
  errcodeKnown := by decide
  busyFlags := fun _ _ h => Engine.noConfusion h
  codeOfTrunc := by decide
  bcdOfCode := by decide
  legacyOfTrunc := by decide
  emptyResults := by decide

/-- Reset leaves the invariant, whatever the block was in. -/
theorem blockInv_resetBlock (inFlight : Option BusReq) (s : State) : BlockInv (resetBlock inFlight s) := by
  obtain ⟨r, n, h⟩ := resetBlock_eq inFlight s
  rw [h]
  exact { invariantHoldsAtReset with }

/-- Settles O45, by cases on who moves next. -/
theorem invariantIsKeptByEveryStep : Obligations.InvariantIsKeptByEveryStep := by
  intro s t hs h
  cases hturns : s.turns with
  | nil => exact hs.engineTurn (step_nil hturns ▸ h)
  | cons turn rest =>
    rw [step_cons hturns] at h
    have hrest : BlockInv { s with turns := rest } := { hs with }
    cases turn with
    | host q => exact Host.Outcome.next.inj h ▸ hrest.serve q
    | bus addr write wdata wstrb => exact Host.Outcome.next.inj h ▸ hrest.serveAt addr write wdata wstrb
    | poll off mask val => exact Host.Outcome.next.inj h ▸ hrest.pollOnce off mask val
    | engine => exact hrest.engineTurn h
    | reset inFlight => exact Host.Outcome.next.inj h ▸ blockInv_resetBlock inFlight _

/-! ### The words a host reads back -/

/-- The offsets 0x18 to 0x2C and 0x80 to 0x90 hold registers that store every bit of a written word and read it back
(10_state.md R35 to R41). -/
theorem exists_reg_storing_word {off : BitVec 8} (hal : off.toNat % 4 = 0)
    (h : 0x18 ≤ off.toNat ∧ off.toNat ≤ 0x2C ∨ 0x80 ≤ off.toNat ∧ off.toNat ≤ 0x90) :
    ∃ r, off = offsetOf r ∧ ∀ v s, readReg r (storeReg r v s) = v := by
  rcases h with ⟨hlo, hhi⟩ | ⟨hlo, hhi⟩
  · have hoff : off.toNat = 0x18 ∨ off.toNat = 0x1C ∨ off.toNat = 0x20 ∨ off.toNat = 0x24 ∨ off.toNat = 0x28 ∨
        off.toNat = 0x2C := by omega
    rcases hoff with h | h | h | h | h | h
    · exact ⟨.step, BitVec.eq_of_toNat_eq h, fun _ _ => rfl⟩
    · exact ⟨.offset, BitVec.eq_of_toNat_eq h, fun _ _ => rfl⟩
    · exact ⟨.timeLo, BitVec.eq_of_toNat_eq h, fun _ _ => rfl⟩
    · exact ⟨.timeHi, BitVec.eq_of_toNat_eq h, fun _ _ => rfl⟩
    · exact ⟨.counterLo, BitVec.eq_of_toNat_eq h, fun _ _ => rfl⟩
    · exact ⟨.counterHi, BitVec.eq_of_toNat_eq h, fun _ _ => rfl⟩
  · refine ⟨.digest ⟨(off.toNat - 0x80) / 4, by omega⟩, BitVec.eq_of_toNat_eq ?_, fun v s => ?_⟩
    · show _ = (BitVec.ofNat 8 (0x80 + 4 * ((off.toNat - 0x80) / 4))).toNat
      rw [BitVec.toNat_ofNat]
      omega
    · simp [readReg, storeReg]

/-- The offsets 0x40 to 0x7C hold the key (10_state.md R40). -/
theorem exists_key_reg {off : BitVec 8} (hal : off.toNat % 4 = 0) (hlo : 0x40 ≤ off.toNat)
    (hhi : off.toNat ≤ 0x7C) : ∃ j, off = offsetOf (.key j) := by
  refine ⟨⟨(off.toNat - 0x40) / 4, by omega⟩, BitVec.eq_of_toNat_eq ?_⟩
  show _ = (BitVec.ofNat 8 (0x40 + 4 * ((off.toNat - 0x40) / 4))).toNat
  rw [BitVec.toNat_ofNat]
  omega

/-- KEYLEN stores the low seven bits (10_state.md R35). -/
theorem setWidth_extractLsb_eq_and (v : Word) : (v.extractLsb' 0 7).setWidth 32 = v &&& 0x7F := by
  apply BitVec.eq_of_toNat_eq
  rw [BitVec.toNat_and, show (0x7F : Word).toNat = 2 ^ 7 - 1 from rfl, Nat.and_two_pow_sub_one_eq_mod]
  simp [BitVec.extractLsb'_toNat]
  omega

/-- The bits of a written word that KEYLEN ignores (10_state.md R35, R47). -/
theorem extractLsb_and_reserved (v : Word) : (v &&& ~~~0xFFFFFF80).extractLsb' 0 7 = v.extractLsb' 0 7 := by
  have hones : (~~~(0xFFFFFF80 : Word)).extractLsb' 0 7 = BitVec.allOnes 7 := by decide
  rw [BitVec.extractLsb'_and, hones, BitVec.and_allOnes]

/-- Settles O17: each offset of the three ranges names its register, and reading that register undoes the store. -/
theorem writtenRegistersReadBack : Obligations.WrittenRegistersReadBack := by
  intro s off v hb
  refine ⟨?_, fun hal h => ?_, fun hal ⟨hlo, hhi⟩ => ?_⟩
  · exact read_after_write (regAt_offsetOf .keyLen) (setWidth_extractLsb_eq_and v) hb rfl
  · obtain ⟨r, rfl, hr⟩ := exists_reg_storing_word hal h
    exact read_after_write (regAt_offsetOf r) (hr v _) hb rfl
  · obtain ⟨j, rfl⟩ := exists_key_reg hal hlo hhi
    exact read_after_write (regAt_offsetOf (.key j)) rfl hb rfl

/-- Settles O19: the read answers the word whose number `statusWord_toNat` and `codeInfoWord_toNat` give. -/
theorem statusAndCodeInfoReadAsLaidOut : Obligations.StatusAndCodeInfoReadAsLaidOut := fun s rest =>
  ⟨⟨_, _, step_read _ 0x10 .status rest (regAt_offsetOf .status) rfl, rfl, statusWord_toNat s⟩,
    ⟨_, _, step_read _ 0x3C .codeInfo rest (regAt_offsetOf .codeInfo) rfl, rfl, codeInfoWord_toNat s⟩⟩

/-- A word with a bit of [31:4] set is not legal (30_encoding.md R93). -/
theorem legal_eq_false {w : Word} (h : 16 ≤ w.toNat) : legal w = false := by
  have hrsv : wordRsv w ≠ 0 := fun h0 => by
    have := (rsv_zero w).mp h0
    omega
  rw [legal, beq_eq_false_iff_ne.mpr hrsv, Bool.false_and]

/-- Settles O18: each field by its own mask lemma, each ignored write by what the register stores. -/
theorem reservedBitsReadZeroAndIgnoreWrites : Obligations.ReservedBitsReadZeroAndIgnoreWrites := by
  intro s v rest after reads ignores
  have hreads : ∀ r mask, readReg r s &&& mask = 0 → reads (offsetOf r) mask := fun r mask h =>
    ⟨_, _, step_read _ _ r rest (regAt_offsetOf r) rfl, rfl,
      (congrArg (· &&& mask) (readReg_model_fields r s _ _)).trans h⟩
  have hignores : ∀ r mask, (∀ u, storeReg r v u = storeReg r (v &&& ~~~mask) u) → ignores (offsetOf r) mask :=
    fun r mask h => step_write_congr s rest (regAt_offsetOf r) h
  refine ⟨hreads .ctrl _ ?_, hreads .status _ ?_, hreads .keyLen _ ?_, hreads .trunc _ ?_, hreads .code _ ?_,
    hreads .codeBcd _ ?_, hreads .codeInfo _ ?_, hignores .ctrl _ ?_, hignores .status _ ?_, hignores .keyLen _ ?_,
    hignores .trunc _ ?_, hignores .code _ ?_, hignores .codeBcd _ ?_, hignores .codeInfo _ ?_, hreads .cmd _ ?_,
    ?_⟩
  · exact setWidth_and_eq_zero _ _ (by decide)
  · exact statusWord_reserved s
  · exact setWidth_and_eq_zero _ _ (by decide)
  · exact setWidth_and_eq_zero _ _ (by decide)
  · exact setWidth_and_eq_zero _ _ (by decide)
  · exact setWidth_and_eq_zero _ _ (by decide)
  · exact codeInfoWord_reserved s
  · intro u
    simp [storeReg]
  · intro u
    simp [storeReg, clearStatus]
  · intro u
    simp only [storeReg, extractLsb_and_reserved]
  · exact fun _ => rfl
  · exact fun _ => rfl
  · exact fun _ => rfl
  · exact fun _ => rfl
  · exact BitVec.zero_and
  · intro hb hv
    have hwrite := step_write { s with turns := .host (writeReq 0x0C v) :: rest } 0x0C .cmd v rest
      (regAt_offsetOf .cmd) (.inr hb) rfl
    exact ⟨_, hwrite, congrArg (Engine.busy (wordOp v)) (legal_eq_false hv), rfl⟩

/-! ### Key bytes past LEN -/

/-- Two key buffers with the same bytes below LEN hold the same key (42_hmac_sha1.md R148). -/
theorem keyBytes_congr {s t : State} (hlen : t.keyLen = s.keyLen)
    (h : ∀ k, k < s.keyLen.toNat → (s.key.toList.getD (k / 4) 0).extractLsb' (24 - 8 * (k % 4)) 8 =
      (t.key.toList.getD (k / 4) 0).extractLsb' (24 - 8 * (k % 4)) 8) :
    keyBytes t = keyBytes s := by
  refine List.ext_getElem (by rw [keyBytes_length, keyBytes_length, hlen]) fun k hkt hks => ?_
  have hk : k < s.keyLen.toNat := by rw [keyBytes_length] at hks; omega
  calc (keyBytes t)[k] = byteAt (keyBytes t) k := (List.getD_eq_getElem _ _ hkt).symm
    _ = byteAt (keyBytes s) k := by rw [keyByte t k (by rw [hlen]; exact hk), keyByte s k hk, h k hk]
    _ = (keyBytes s)[k] := List.getD_eq_getElem _ _ hks

/-- A digest depends on the key buffer through the key alone. -/
theorem digestOfCounter_key_update {s : State} {key : Vector Word 16} (hk : keyBytes { s with key := key } = keyBytes s)
    (c : BitVec 64) : digestOfCounter c { s with key := key } = digestOfCounter c s := by
  unfold digestOfCounter
  rw [hk]
  rfl

/-- HOTP acts alike, but for the key buffer, on two key buffers that hold the same key. -/
theorem hotpOfCounter_key_update {s : State} {key : Vector Word 16} (hk : keyBytes { s with key := key } = keyBytes s)
    (c : BitVec 64) :
    hotpOfCounter c { s with key := key } = (hotpOfCounter c s).map fun u => { u with key := key } := by
  unfold hotpOfCounter
  rw [digestOfCounter_key_update hk]
  cases digestOfCounter c s <;> rfl

/-- Every EXEC_op acts alike, but for the key buffer, on two key buffers that hold the same key; CLEAR erases both. -/
theorem execResult_key_update {s : State} {key : Vector Word 16} (hk : keyBytes { s with key := key } = keyBytes s)
    (i : Instr) :
    ∃ key', execResult i { s with key := key } = (execResult i s).map (fun u => { u with key := key' }) ∧
      (i ≠ .clear → key' = key) := by
  cases i with
  | clear => exact ⟨Vector.replicate 16 0, rfl, fun h => absurd rfl h⟩
  | encode =>
    have hc : nextCounter { s with key := key } = nextCounter s := rfl
    refine ⟨key, ?_, fun _ => rfl⟩
    simp only [execResult, encodeResult, hc]
    cases nextCounter s <;> rfl
  | hmac =>
    have hc : counterOf { s with key := key } = counterOf s := rfl
    refine ⟨key, ?_, fun _ => rfl⟩
    simp only [execResult, hmacResult, hc, digestOfCounter_key_update hk]
    cases digestOfCounter (counterOf s) s <;> rfl
  | hotp => exact ⟨key, hotpOfCounter_key_update hk _, fun _ => rfl⟩
  | totp =>
    have hc : nextCounter { s with key := key } = nextCounter s := rfl
    refine ⟨key, ?_, fun _ => rfl⟩
    simp only [execResult, totpResult, hc]
    cases nextCounter s with
    | error e => rfl
    | ok c =>
      simp only [hotpOfCounter_key_update hk]
      cases hotpOfCounter c s <;> rfl
  | _ => exact ⟨key, rfl, fun _ => rfl⟩

/-- Settles O32: a command reads the key buffer through the key alone. -/
theorem keyBytesPastLenAreIgnored : Obligations.KeyBytesPastLenAreIgnored := by
  intro i s t key hbytes hexec
  obtain ⟨key', hkey, hclear⟩ := execResult_key_update (keyBytes_congr (t := { s with key := key }) rfl hbytes) i
  refine ⟨key', ?_, hclear⟩
  rw [exec_eq_complete] at hexec ⊢
  rw [hkey]
  rcases complete_cases (execResult i s) s with ⟨u, hu, hnext⟩ | ⟨e, he, hnext⟩
  · obtain rfl := Host.Outcome.next.inj (hnext.symm.trans hexec)
    rw [hu]
    rfl
  · obtain rfl := Host.Outcome.next.inj (hnext.symm.trans hexec)
    have hi : i ≠ .clear := by
      rintro rfl
      exact absurd he (by simp [execResult])
    rw [he, hclear hi]
    rfl

/-! ### A step runs the accepted command -/

/-- The engine keeps enough of a command to run it: OP and verdict determine its meaning, RSV does not matter
(44_totp_and_control.md R203). -/
theorem exec_commandOf (i : Instr) (s : State) : exec (commandOf (opField i) (isLegalCommand i)) s = exec i s := by
  cases i with
  | illegalRsv rsv op =>
    have hc : isLegalCommand (commandOf op false) = false := by rw [commandOf_legal, Bool.false_and]
    exact (exec_illegal hc s).trans (exec_illegal rfl s).symm
  | _ => rfl

/-- A busy engine that holds a command runs it. -/
theorem engineTurn_command {i : Instr} {s : State} (heng : s.eng = .busy (opField i) (isLegalCommand i)) :
    engineTurn s = exec i s :=
  (engineTurn_busy heng).trans (exec_commandOf i s)

/-- The command of a word has the word's OP and its verdict (30_encoding.md R92 to R94). -/
theorem decode_fields (w : Word) : opField (decode w) = wordOp w ∧ isLegalCommand (decode w) = legal w := by
  by_cases hrsv : wordRsv w = 0
  · have hlegal : ∀ op : BitVec 4, isLegalCommand (decodeOp op) = (decide (op.toNat ≤ 5) || op == 0xF#4) := by
      decide
    obtain ⟨-, hop, -⟩ := decodeOp_wf (wordOp w)
    rw [decode, if_pos hrsv, legal, beq_iff_eq.mpr hrsv, Bool.true_and]
    exact ⟨hop, hlegal _⟩
  · rw [decode, if_neg hrsv, legal, beq_eq_false_iff_ne.mpr hrsv, Bool.false_and]
    exact ⟨rfl, rfl⟩

/-- A word of 32 bits is the table word of its number. -/
theorem tableWord_toNat (w : Word) : tableWord 32 w.toNat = w := by
  rw [tableWord, Nat.mod_eq_of_lt w.isLt, BitVec.ofNat_toNat, BitVec.setWidth_eq]

/-- Settles O5: what ENG holds of a command, and what acceptance keeps of a word, is enough to run it. -/
theorem stepRunsTheAcceptedCommand : Obligations.StepRunsTheAcceptedCommand := by
  refine ⟨fun i s rest _ heng => ⟨fun ht => ?_, fun ht => ?_⟩, fun s w => ?_⟩
  · exact (step_cons ht).trans (engineTurn_command (s := { s with turns := rest }) heng)
  · exact (step_nil ht).trans (engineTurn_command heng)
  · obtain ⟨hop, hlegal⟩ := decode_fields w
    have hplaced : s.withFetchWord 32 w.toNat = accept w { s with turns := .engine :: s.turns } := by
      rw [State.withFetchWord, fetchNext, tableWord_toNat]
    have heng : (accept w s).eng = .busy (opField (decode w)) (isLegalCommand (decode w)) := by
      rw [accept_eng, hop, hlegal]
    rw [hplaced]
    exact (step_cons (t := .engine) (rest := s.turns) rfl).trans (engineTurn_command (s := accept w s) heng)

/-! ### STATUS, CTRL, ID and VERSION -/

/-- A bit that a set bit of the written word clears. -/
theorem and_not_eq_ite (b c : Bool) : (b && !c) = if c then false else b := by
  cases c <;> simp

/-- Settles O10: STATUS is never locked, and a partial or misaligned write reaches no register. -/
theorem statusWriteClearsTheNamedBits : Obligations.StatusWriteClearsTheNamedBits := by
  refine fun s v rest => ⟨fun ht => ⟨_, ?_, statusWord_reserved _, rfl⟩, fun off strb hbad ht => ?_⟩
  · rw [step_write s 0x10 .status v rest (regAt_offsetOf .status) (.inl rfl) ht]
    simp only [storeReg, clearStatus, and_not_eq_ite, BitVec.getLsbD_eq_getElem (show 1 < 32 by decide),
      BitVec.getLsbD_eq_getElem (show 2 < 32 by decide), BitVec.getLsbD_eq_getElem (show 3 < 32 by decide)]
  · have hserve : strb ≠ 0b1111 ∨ regAt off = none := by
      rcases hbad with ⟨_, hstrb⟩ | hmis
      · exact .inl hstrb
      · exact .inr (regAt_of_misaligned hmis)
    exact (step_host ht).trans (congrArg _ (serve_bad_write v _ hserve))

/-- Settles O11: CTRL is never locked. -/
theorem ctrlWriteSetsIeAlsoWhileBusy : Obligations.CtrlWriteSetsIeAlsoWhileBusy := by
  refine ⟨rfl, fun s v rest => ⟨fun ht => ?_, fun ht => ?_⟩⟩
  · exact ⟨_, step_write s 0x08 .ctrl v rest (regAt_offsetOf .ctrl) (.inl rfl) ht, rfl, rfl⟩
  · have hread : readReg .ctrl s = if s.ie then 1 else 0 := by
      simp only [readReg]
      cases s.ie <;> rfl
    rw [step_read s 0x08 .ctrl rest (regAt_offsetOf .ctrl) ht, hread]

/-- Settles O12: the two registers are never locked, and a store to them is empty. -/
theorem idAndVersionNeverChange : Obligations.IdAndVersionNeverChange := by
  refine fun s v rest => ⟨fun ht => ?_, fun ht => ?_, fun ht => ?_⟩
  · exact step_read s 0x00 .id rest (regAt_offsetOf .id) ht
  · exact step_read s 0x04 .version rest (regAt_offsetOf .version) ht
  · rcases ht with ht | ht
    · exact step_write s 0x00 .id v rest (regAt_offsetOf .id) (.inl rfl) ht
    · exact step_write s 0x04 .version v rest (regAt_offsetOf .version) (.inl rfl) ht

/-! ### Reset -/

/-- Settles O47: but for the model's own fields, reset leaves the reset block, whose registers are the table's. -/
theorem resetRestoresTheResetTable : Obligations.ResetRestoresTheResetTable := by
  intro s inFlight rest ht
  obtain ⟨r, n, h⟩ := resetBlock_eq inFlight { s with turns := rest }
  have hstep := (step_cons ht).trans (congrArg Host.Outcome.next h)
  refine ⟨_, hstep, rfl, rfl, ?_, rfl, rfl, rfl, rfl, rfl, rfl, rfl, rfl, ?_, ?_, rfl, rfl, rfl, ?_, rfl, rfl, rfl, rfl⟩
  · exact (by decide : statusWord State.reset = 0)
  · exact (by decide : ∀ j : Fin 16, State.reset.key[j] = 0)
  · exact (by decide : ∀ j : Fin 5, State.reset.digest[j] = 0)
  · exact (by decide : codeInfoWord State.reset = 0)

end Sys2Proof.Machine

/-! ## Memory: access checks, reads, address decoding and WAIT

Proofs of O14, O52, O13, O15, O16 and O21: first which accesses the port refuses and what it answers them, then each
statement with the lemmas it needs. -/

namespace Sys2Proof.Machine

/-! ### The accesses that get ERROR -/

/-- The reserved slots of the window begin after DIGEST4 (20_memory.md R75). -/
theorem regOfSlot_eq_none_iff (n : Nat) : regOfSlot n = none ↔ 37 ≤ n := by
  unfold regOfSlot
  split
  case h_17 =>
    split
    · simp only [reduceCtorEq, false_iff]
      omega
    · split
      · simp only [reduceCtorEq, false_iff]
        omega
      · simp only [true_iff]
        omega
  all_goals simp

/-- An offset with off[1:0] = 0b00 is aligned (20_memory.md R74). -/
theorem misaligned_eq_false {off : BitVec 8} (h : off.toNat % 4 = 0) : misaligned off = false := by
  have h0 : off.extractLsb' 0 2 = 0 := BitVec.eq_of_toNat_eq (by simpa [BitVec.extractLsb'_toNat] using h)
  simp [misaligned, h0]

/-- The window holds a register at every offset but the misaligned and the reserved ones (20_memory.md R74, R75). -/
theorem regAt_eq_none_iff (off : BitVec 8) :
    regAt off = none ↔ off.toNat % 4 ≠ 0 ∨ 0x94 ≤ off.toNat ∧ off.toNat ≤ 0xFC := by
  by_cases hal : off.toNat % 4 = 0
  · have hslot : regAt off = regOfSlot (off.toNat / 4) := by simp [regAt, misaligned_eq_false hal]
    rw [hslot, regOfSlot_eq_none_iff]
    omega
  · exact iff_of_true (regAt_of_misaligned hal) (.inl hal)

/-- The reserved range, as bounds on the offset (20_memory.md R75). -/
theorem reservedOffset_iff (off : BitVec 8) : reservedOffset off = true ↔ 0x94 ≤ off.toNat ∧ off.toNat ≤ 0xFC := by
  simp [reservedOffset]

/-- Where no register is, and on a write with a partial strobe, the port answers ERROR (20_memory.md R73 to R75). -/
theorem serve_eq_busError {q : BusReq} (s : State) (h : regAt q.off = none ∨ q.write = true ∧ q.wstrb ≠ 0b1111) :
    serve q s = busError q s := by
  rcases serve_cases q s with hs | ⟨r, hr, hw, _⟩ | ⟨r, hr, _, hstrb, _⟩
  · exact hs
  · rcases h with h | ⟨h, _⟩
    · exact absurd (hr.symm.trans h) (by simp)
    · exact absurd (hw.symm.trans h) (by simp)
  · rcases h with h | ⟨_, h⟩
    · exact absurd (hr.symm.trans h) (by simp)
    · exact absurd hstrb h

/-- An ERROR to a read in the reserved range carries 0 (20_memory.md R75). -/
theorem busError_read_reserved {q : BusReq} (s : State) (hq : q.write = false) (hres : reservedOffset q.off = true) :
    busError q s = { s with resp := some ⟨some 0, true⟩ } := by
  simp [busError, hq, hres]

/-- An ERROR to a read outside the reserved range carries a free value (log entry 6). -/
theorem busError_read_free {q : BusReq} (s : State) (hq : q.write = false) (hres : reservedOffset q.off = false) :
    busError q s = { s with
      resp := some ⟨some (Config.freeReadData s.freeCount), true⟩, freeCount := s.freeCount + 1 } := by
  simp [busError, hq, hres]

/-- Every read is answered with a word, and a refused one in the reserved range with 0 (20_memory.md R75). -/
theorem serve_read_data {q : BusReq} (s : State) (hq : q.write = false) :
    ∃ v e, (serve q s).resp = some ⟨some v, e⟩ ∧ (reservedOffset q.off = true → v = 0) := by
  cases hr : regAt q.off with
  | none =>
    rw [serve_eq_busError s (.inl hr)]
    cases hres : reservedOffset q.off with
    | true => exact ⟨_, _, by rw [busError_read_reserved s hq hres], fun _ => rfl⟩
    | false => exact ⟨_, _, by rw [busError_read_free s hq hres], fun h => absurd h (by simp)⟩
  | some r =>
    refine ⟨_, _, by rw [serve_read s hq hr], fun hres => ?_⟩
    have hnone := (regAt_eq_none_iff q.off).mpr (.inr ((reservedOffset_iff q.off).mp hres))
    exact absurd (hr.symm.trans hnone) (by simp)

/-- An ERROR response leaves the block as it was (60_exceptions.md R227). -/
theorem busError_block (q : BusReq) (s : State) : (busError q s).block = s.block := by
  obtain ⟨d, n, h⟩ := busError_eq q s
  rw [h]
  rfl

/-- Every transaction is answered, with ERROR exactly where it reaches no register or writes a part of a word
(20_memory.md R73 to R75). -/
theorem serve_resp (q : BusReq) (s : State) :
    ∃ d e, (serve q s).resp = some ⟨d, e⟩ ∧ (e = true ↔ regAt q.off = none ∨ q.write = true ∧ q.wstrb ≠ 0b1111) := by
  by_cases hbad : regAt q.off = none ∨ q.write = true ∧ q.wstrb ≠ 0b1111
  · obtain ⟨d, n, h⟩ := busError_eq q s
    exact ⟨d, true, by rw [serve_eq_busError s hbad, h], iff_of_true rfl hbad⟩
  · obtain ⟨hreg, hstrb⟩ := not_or.mp hbad
    obtain ⟨r, hr⟩ := Option.ne_none_iff_exists'.mp hreg
    cases hq : q.write with
    | false => exact ⟨_, false, by rw [serve_read s hq hr], iff_of_false (by simp) (hq ▸ hbad)⟩
    | true =>
      have hfull : q.wstrb = 0b1111 := not_not.mp fun h => hstrb ⟨hq, h⟩
      exact ⟨_, false, by rw [serve_write s hq hr hfull], iff_of_false (by simp) (hq ▸ hbad)⟩

/-- Settles O14: the conditions for ERROR at the port, put as bounds on the offset. -/
theorem badAccessesGetErrorAndDoNothing : Obligations.BadAccessesGetErrorAndDoNothing := by
  intro s q rest ht
  obtain ⟨d, e, hresp, herr⟩ := serve_resp q { s with turns := rest }
  refine ⟨_, d, e, step_host ht, hresp, serve_turns q _, ?_, fun he => ?_, fun hq => ?_⟩
  · rw [herr, regAt_eq_none_iff, or_assoc]
  · rw [serve_eq_busError _ (herr.mp he)]
    exact busError_block q _
  · obtain ⟨v, _, hread, hzero⟩ := serve_read_data { s with turns := rest } hq
    have hd : d = some v := congrArg BusResp.rdata (Option.some.inj (hresp.symm.trans hread))
    exact ⟨v, hd, fun _ hres => hzero ((reservedOffset_iff q.off).mpr hres)⟩

/-- Settles O15: a misaligned offset reaches no register, and the range of R75 gives the data. -/
theorem misalignedReadsInTheReservedRangeReturnZero : Obligations.MisalignedReadsInTheReservedRangeReturnZero := by
  intro s off rest hmis hlo hhi ht
  have hserve : serve (readReq off) { s with turns := rest } =
      { s with turns := rest, resp := some ⟨some 0, true⟩ } := by
    rw [serve_eq_busError _ (.inl (regAt_of_misaligned hmis)),
      busError_read_reserved _ rfl ((reservedOffset_iff off).mpr ⟨hlo, hhi⟩)]
  rw [step_host ht, hserve]

/-! ### Accesses without effect -/

/-- A read leaves the block as it was, whatever it is answered (20_memory.md R76). -/
theorem serve_read_block {q : BusReq} (s : State) (hq : q.write = false) : (serve q s).block = s.block := by
  rcases serve_cases q s with h | ⟨r, _, _, h⟩ | ⟨r, _, hw, _⟩
  · rw [h]
    exact busError_block q s
  · rw [h]
    rfl
  · exact absurd (hq.symm.trans hw) (by simp)

/-- The interrupt output is a view of the block (60_exceptions.md R230). -/
theorem irq_block (s : State) : irq s.block = irq s := rfl

/-- Settles O16: the interrupt output is a view of the block, which a read leaves as it was. -/
theorem readsChangeNoState : Obligations.ReadsChangeNoState := by
  intro s q rest hq ht
  have hblock : (serve q { s with turns := rest }).block = s.block := serve_read_block _ hq
  exact ⟨_, step_host ht, hblock, serve_turns q _, by rw [← irq_block, hblock, irq_block]⟩

/-- Settles O13: the result registers are never locked, and a store to them is empty. -/
theorem resultRegistersIgnoreWrites : Obligations.ResultRegistersIgnoreWrites := by
  intro s off v rest hoff ht
  simp only [List.mem_cons, List.not_mem_nil, or_false] at hoff
  rcases hoff with rfl | rfl | rfl | rfl
  · exact step_write s 0x30 .trunc v rest (regAt_offsetOf .trunc) (.inl rfl) ht
  · exact step_write s 0x34 .code v rest (regAt_offsetOf .code) (.inl rfl) ht
  · exact step_write s 0x38 .codeBcd v rest (regAt_offsetOf .codeBcd) (.inl rfl) ht
  · exact step_write s 0x3C .codeInfo v rest (regAt_offsetOf .codeInfo) (.inl rfl) ht

/-! ### Address decoding -/

/-- The offset of an address in the window is its low byte, because BASE is a multiple of 256 (20_memory.md R71). -/
theorem selectOffset_of_mem {a : Nat} (h : Config.base ≤ a ∧ a < Config.base + 256) :
    selectOffset Config.base a = some (BitVec.ofNat 8 a) := by
  have hlow : (a - Config.base) % 2 ^ 8 = a % 2 ^ 8 := by
    simp only [Config.base] at h ⊢
    omega
  have hoff : BitVec.ofNat 8 (a - Config.base) = BitVec.ofNat 8 a :=
    BitVec.eq_of_toNat_eq (by simpa only [BitVec.toNat_ofNat] using hlow)
  rw [selectOffset, if_pos h, hoff]

/-- A transaction at a bus address outside the window reaches no port of the block (log entry 26). -/
theorem selectOffset_of_not_mem {a : Nat} (h : ¬(Config.base ≤ a ∧ a < Config.base + 256)) :
    selectOffset Config.base a = none := if_neg h

/-- A transaction at a bus address has its turn. -/
theorem step_bus {s : State} {a : Nat} {write : Bool} {v : Word} {strb : BitVec 4} {rest : List Turn}
    (ht : s.turns = .bus a write v strb :: rest) :
    step s = .next (serveAt a write v strb { s with turns := rest }) := step_cons ht

/-- Settles O21: an address in the window is served at its low byte, another one reaches no port of the block. -/
theorem addressDecodingSelectsTheWindow : Obligations.AddressDecodingSelectsTheWindow := by
  refine ⟨Nat.mul_mod_right 256 _, fun s a write v strb rest => ⟨fun hin => ?_, fun hout => ?_⟩⟩
  · rw [step_bus rfl, step_host rfl, serveAt, selectOffset_of_mem hin]
  · refine ⟨_, step_bus rfl, ?_, ?_⟩
    · rw [serveAt, selectOffset_of_not_mem hout]
      rfl
    · rw [serveAt, selectOffset_of_not_mem hout]

/-! ### WAIT -/

/-- What WAIT waits for: BUSY 0 and DONE 1 (30_encoding.md R97). -/
theorem statusWord_and_three_iff (s : State) : statusWord s &&& 3 = 2 ↔ busy s = false ∧ s.done = true := by
  have hlow : (statusWord s &&& 3).toNat = (busy s).toNat + 2 * s.done.toNat := by
    rw [BitVec.toNat_and, show (3 : Word).toNat = 2 ^ 2 - 1 from rfl, Nat.and_two_pow_sub_one_eq_mod, statusWord_toNat]
    have hb := Bool.toNat_le (busy s)
    have hd := Bool.toNat_le s.done
    omega
  rw [← BitVec.toNat_inj, hlow]
  cases busy s <;> cases s.done <;> decide

/-- A read of STATUS at the port. -/
theorem serve_read_status (s : State) :
    serve (readReq (offsetOf .status)) s = { s with resp := some ⟨some (statusWord s), false⟩ } :=
  serve_read (r := .status) s rfl (regAt_offsetOf .status)

/-- A read of STATUS ends WAIT exactly where BUSY is 0 and DONE is 1. -/
theorem pollEnds_status_iff (s : State) :
    pollEnds 3 2 (serve (readReq (offsetOf .status)) s) = true ↔ busy s = false ∧ s.done = true := by
  rw [serve_read_status, ← statusWord_and_three_iff]
  exact beq_iff_eq

/-- On a busy block WAIT reads STATUS, and schedules the engine and its next read (log entry 21). -/
theorem pollOnce_status_busy {s : State} (hb : busy s = true) :
    pollOnce (offsetOf .status) 3 2 s = { s with
      turns := .engine :: .poll (offsetOf .status) 3 2 :: s.turns, resp := some ⟨some (statusWord s), false⟩ } := by
  rcases pollOnce_cases (offsetOf .status) 3 2 s with ⟨hends, _⟩ | ⟨_, h⟩
  · obtain ⟨hidle, _⟩ := (pollEnds_status_iff s).mp hends
    exact absurd (hb.symm.trans hidle) (by simp)
  · rw [h, serve_read_status]

/-- After a completion WAIT ends with its read of STATUS. -/
theorem pollOnce_status_done {s : State} (hb : busy s = false) (hd : s.done = true) :
    pollOnce (offsetOf .status) 3 2 s = { s with resp := some ⟨some (statusWord s), false⟩ } := by
  rcases pollOnce_cases (offsetOf .status) 3 2 s with ⟨_, h⟩ | ⟨hends, _⟩
  · rw [h, serve_read_status]
  · exact absurd (hends.symm.trans ((pollEnds_status_iff s).mpr ⟨hb, hd⟩)) (by decide)

/-- Every completion leaves the engine IDLE and DONE set, and schedules nothing (40_command_model.md R116). -/
theorem exec_completes (i : Instr) (s : State) :
    ∃ t, exec i s = .next t ∧ t.eng = .idle ∧ t.done = true ∧ t.turns = s.turns := by
  rw [exec_eq_complete]
  rcases complete_cases (execResult i s) s with ⟨u, hu, h⟩ | ⟨e, _, h⟩
  · obtain ⟨-, -, -, -, -, -, -, hturns, -, -⟩ := execResult_frame i s u hu
    exact ⟨_, h, rfl, rfl, hturns⟩
  · exact ⟨_, h, rfl, rfl, rfl⟩

/-- The turn of a busy engine completes its command. -/
theorem step_engine_busy {s : State} {rest : List Turn} (hb : busy s = true) (ht : s.turns = .engine :: rest) :
    ∃ t, step s = .next t ∧ t.eng = .idle ∧ t.done = true ∧ t.turns = rest := by
  obtain ⟨op, ok, heng⟩ := (busy_iff s).mp hb
  have hstep : step s = exec (commandOf op ok) { s with turns := rest } :=
    (step_cons ht).trans (engineTurn_busy (s := { s with turns := rest }) heng)
  rw [hstep]
  exact exec_completes _ _

/-- Settles O52: a read that finds the block busy, the completion, and the read that ends WAIT. -/
theorem waitEndsWithDone : Obligations.WaitEndsWithDone := by
  intro s rest hb ht
  have hread : step s = .next { s with
      turns := .engine :: .poll (offsetOf .status) 3 2 :: rest, resp := some ⟨some (statusWord s), false⟩ } :=
    (step_cons ht).trans (congrArg Host.Outcome.next (pollOnce_status_busy (s := { s with turns := rest }) hb))
  obtain ⟨u, hengine, hidle, hdone, hturns⟩ := step_engine_busy (s := { s with
    turns := .engine :: .poll (offsetOf .status) 3 2 :: rest, resp := some ⟨some (statusWord s), false⟩ }) hb rfl
  have hlast : step u = .next { u with turns := rest, resp := some ⟨some (statusWord u), false⟩ } :=
    (step_cons hturns).trans (congrArg Host.Outcome.next
      (pollOnce_status_done (s := { u with turns := rest }) (busy_idle hidle) hdone))
  have hrun := calc runSteps 3 s
    _ = runSteps 2 _ := run_succ 2 hread
    _ = runSteps 1 u := run_succ 1 hengine
    _ = step u := run_one u
    _ = _ := hlast
  exact ⟨_, _, hrun, rfl, rfl, (statusWord_and_three_iff u).mpr ⟨busy_idle hidle, hdone⟩, hidle⟩

end Sys2Proof.Machine

/-! ## Encoding: command words, the life of a written command, and LDKEY

Proofs of O1, O2, O3, O4, O6 and O53: first that decoding and encoding are inverse on well-formed commands, then the
verdict, the run of a written word, and what the writes of LDKEY leave in the key buffer. -/

namespace Sys2Proof.Machine

/-! ### Decoding and encoding are inverse -/

/-- The command of a word has the word's bits [31:4] (30_encoding.md R90, R94). -/
theorem rsvField_decode (w : Word) : rsvField (decode w) = wordRsv w := by
  by_cases hrsv : wordRsv w = 0
  · obtain ⟨-, -, hzero⟩ := decodeOp_wf (wordOp w)
    rw [decode, if_pos hrsv, hrsv, hzero]
  · rw [decode, if_neg hrsv]
    rfl

/-- A word decodes to ILLEGAL_RSV only where its bits [31:4] are not 0 (30_encoding.md R94). -/
theorem decode_wellFormed (w : Word) : (decode w).WellFormed := by
  by_cases hrsv : wordRsv w = 0
  · obtain ⟨hwf, -, -⟩ := decodeOp_wf (wordOp w)
    rwa [decode, if_pos hrsv]
  · rw [decode, if_neg hrsv]
    exact bne_iff_ne.mpr hrsv

/-- Encoding a decoded word drops no bit of it. -/
theorem encode_decode (w : Word) : encode (decode w) = w := by
  obtain ⟨hop, -⟩ := decode_fields w
  rw [encode, rsvField_decode, hop]
  exact split_word w

/-- Decoding the word of a well-formed command gives it back. -/
theorem decode_encode {i : Instr} (hwf : i.WellFormed) : decode (encode i) = i := by
  rw [decode, wordRsv_encode, wordOp_encode]
  cases i with
  | illegalRsv rsv op => exact if_neg (bne_iff_ne.mp hwf)
  | _ => rfl

/-- The four lanes of a word make it up again (20_memory.md R72). -/
theorem decodeBytes_lanesOfWord (w : Word) (rest : List Byte) :
    decodeBytes (lanesOfWord w ++ rest) = .ok (decode w, rest) :=
  congrArg (fun v => Except.ok (decode v, rest)) (pack32_be32 w)

/-- A 32-bit table word is decoded as the command word of its number. -/
theorem decodeTableWord_toNat (w : Word) : decodeTableWord 32 w.toNat = some (decode w) := by
  have hlanes := decodeBytes_lanesOfWord w []
  rw [List.append_nil] at hlanes
  rw [decodeTableWord, if_pos (Nat.le_refl 32), tableWord_toNat, hlanes]

/-- Settles O1: the lanes make up the word again, and the word gives the command back. -/
theorem encodedCommandDecodesToItself : Obligations.EncodedCommandDecodesToItself := by
  refine fun i rest hwf => ⟨?_, ?_⟩
  · rw [encodeBytes, decodeBytes_lanesOfWord, decode_encode hwf]
  · rw [decodeTableWord_toNat, decode_encode hwf]

/-- Settles O2: a command with the word `w` is what `w` decodes to, because decoding undoes encoding. -/
theorem everyWordIsTheWordOfOneCommand : Obligations.EveryWordIsTheWordOfOneCommand := by
  refine fun w => ⟨decode_wellFormed w, encode_decode w, fun i hwf hword => ?_⟩
  rw [← hword, decode_encode hwf]

/-- Settles O4: the words are written out, so decoding them is a computation. -/
theorem opcodeMapWords : Obligations.OpcodeMapWords := by
  unfold Obligations.OpcodeMapWords
  decide

/-! ### The verdict -/

/-- The verdict in the word's two fields (30_encoding.md R93). -/
theorem legal_iff (w : Word) :
    legal w = true ↔ wordRsv w = 0 ∧ ((wordOp w).toNat ≤ 5 ∨ (wordOp w).toNat = 15) := by
  have hclear : wordOp w = 0xF#4 ↔ (wordOp w).toNat = 15 := BitVec.toNat_inj.symm
  rw [legal, Bool.and_eq_true, Bool.or_eq_true, beq_iff_eq, beq_iff_eq, decide_eq_true_iff, hclear]

/-- The commands that the opcode map gives a computation, as a list (30_encoding.md R92). -/
theorem isLegalCommand_iff (i : Instr) :
    isLegalCommand i = true ↔ i ∈ [.nop, .encode, .hmac, .trunc, .hotp, .totp, .clear] := by
  cases i <;> simp [isLegalCommand]

/-- Settles O3: on numbers by the two fields, on commands because `decode` keeps the verdict. -/
theorem legalVerdictIsTheOpcodeSet : Obligations.LegalVerdictIsTheOpcodeSet := by
  refine fun w => ⟨?_, ?_⟩
  · rw [legal_iff, rsv_zero, op_toNat]
    simp only [List.mem_cons, List.not_mem_nil, or_false]
    omega
  · obtain ⟨-, hlegal⟩ := decode_fields w
    rw [← hlegal, isLegalCommand_iff]

/-! ### From the CMD write to the completion -/

/-- The engine runs the command of an accepted word, whatever else the state holds (40_command_model.md R116). -/
theorem engineTurn_of_accepted {w : Word} {s : State} (heng : s.eng = .busy (wordOp w) (legal w)) :
    engineTurn s = exec (decode w) s := by
  obtain ⟨hop, hlegal⟩ := decode_fields w
  exact engineTurn_command (by rw [heng, hop, hlegal])

/-- Settles O6: the write is an acceptance, and the engine's turn runs the accepted word. -/
theorem cmdWriteThenEngineRunsTheDecodedCommand : Obligations.CmdWriteThenEngineRunsTheDecodedCommand := by
  intro s w rest hb ht
  have hwrite := step_write s 0x0C .cmd w (.engine :: rest) (regAt_offsetOf .cmd) (.inr hb) ht
  rw [run_succ 1 hwrite, run_one, step_cons (t := .engine) (rest := rest) rfl]
  exact engineTurn_of_accepted (s := accept w { s with turns := rest, resp := some ⟨none, false⟩ }) rfl

/-! ### The words of LDKEY -/

/-- A key takes as many words as it has whole or begun groups of four bytes. -/
theorem keyWords_length (k : List Byte) : (keyWords k).length = (k.length + 3) / 4 := by
  induction k using keyWords.induct with
  | case1 b0 b1 b2 b3 rest ih =>
    simp only [keyWords, List.length_cons, ih]
    omega
  | _ => simp [keyWords]

/-- The bytes of the words of a key begin with the key. -/
theorem keyWords_bytes_begin_with_key (k : List Byte) : k <+: (keyWords k).flatMap be32 := by
  induction k using keyWords.induct with
  | case1 b0 b1 b2 b3 rest ih => simpa [keyWords, be32_pack32] using ih
  | _ => simp [keyWords, be32_pack32]

/-- One write per word. -/
theorem keyWrites_length (j : Nat) (ws : List Word) : (keyWrites j ws).length = ws.length := by
  induction ws generalizing j with
  | nil => rfl
  | cons w ws ih => simp [keyWrites, ih]

/-! ### The writes of LDKEY -/

/-- The key buffer after the writes of `keyWrites j ws`. -/
def storeKeyWords : Nat → List Word → Vector Word 16 → Vector Word 16
  | _, [], key => key
  | j, w :: ws, key => storeKeyWords (j + 1) ws (key.setIfInBounds j w)

/-- The writes put their words in place of as many words from KEYj on, where the buffer has so many. -/
theorem toList_storeKeyWords {j : Nat} {ws : List Word} (key : Vector Word 16) (hlen : j + ws.length ≤ 16) :
    (storeKeyWords j ws key).toList = key.toList.take j ++ ws ++ key.toList.drop (j + ws.length) := by
  induction ws generalizing j key with
  | nil => simp [storeKeyWords]
  | cons w ws ih =>
    rw [List.length_cons] at hlen
    have hj : j < key.toList.length := by
      rw [Vector.length_toList]
      omega
    have hset : (key.setIfInBounds j w).toList = key.toList.set j w := by simp
    have htake : (key.toList.set j w).take (j + 1) = key.toList.take j ++ [w] := by
      rw [List.take_add_one, List.take_set_of_le (Nat.le_refl j), List.getElem?_set_self hj, Option.toList_some]
    have hdrop : (key.toList.set j w).drop (j + 1 + ws.length) = key.toList.drop (j + (w :: ws).length) := by
      rw [List.drop_set_of_lt (by omega), List.length_cons, Nat.add_right_comm, Nat.add_assoc]
    rw [storeKeyWords, ih _ (by omega), hset, htake, hdrop, List.append_assoc _ [w], List.singleton_append]

/-- On an idle block the writes of key words are stored one after the other (10_state.md R40); only the last response is
left of their answers. -/
theorem run_keyWrites {s : State} {j : Nat} {ws : List Word} {rest : List Turn} (n : Nat) (hb : busy s = false)
    (hlen : j + ws.length ≤ 16) (ht : s.turns = keyWrites j ws ++ rest) :
    ∃ r, runSteps (ws.length + n) s =
      runSteps n { s with key := storeKeyWords j ws s.key, turns := rest, resp := r } := by
  induction ws generalizing j s with
  | nil =>
    have hturns : s.turns = rest := ht
    exact ⟨s.resp, by rw [List.length_nil, Nat.zero_add, storeKeyWords, ← hturns]⟩
  | cons w ws ih =>
    rw [List.length_cons] at hlen
    have hj : j < 16 := by omega
    have hwrite := step_write s _ (.key ⟨j, hj⟩) w _ (regAt_offsetOf _) (.inr hb) ht
    have hset : s.key.set j w = s.key.setIfInBounds j w := by
      ext i hi
      rw [Vector.getElem_set, Vector.getElem_setIfInBounds]
    obtain ⟨r, hrun⟩ := ih (s := { s with
      key := s.key.set j w, turns := keyWrites (j + 1) ws ++ rest, resp := some ⟨none, false⟩ }) hb (by omega) rfl
    refine ⟨r, ?_⟩
    rw [List.length_cons, Nat.add_right_comm, run_succ _ hwrite, storeKeyWords, ← hset]
    exact hrun

/-- A buffer that begins with the words of a key holds that key in its first bytes (42_hmac_sha1.md R148). -/
theorem keyBytes_of_keyWords {s : State} {k : List Byte} {tail : List Word} (hlen : s.keyLen.toNat = k.length)
    (hkey : s.key.toList = keyWords k ++ tail) : keyBytes s = k := by
  obtain ⟨after, hafter⟩ : k <+: s.key.toList.flatMap be32 := by
    rw [hkey, List.flatMap_append]
    exact (keyWords_bytes_begin_with_key k).trans ⟨_, rfl⟩
  rw [keyBytes, hlen, ← hafter, List.take_left]

/-- KEYLEN takes the length of a key of at most 64 bytes as it is. -/
theorem keyLen_of_length {n : Nat} (h : n ≤ 64) : ((BitVec.ofNat 32 n).extractLsb' 0 7).toNat = n := by
  rw [BitVec.extractLsb'_toNat, BitVec.toNat_ofNat, Nat.shiftRight_zero]
  omega

/-- A buffer that differs from another in its first words only has the other's words after them. -/
theorem getElem_of_toList_eq_append_drop {key key' : Vector Word 16} {ws : List Word} {j : Fin 16}
    (h : key'.toList = ws ++ key.toList.drop ws.length) (hj : ws.length ≤ j.val) : key'[j] = key[j] := by
  have hget : key'.toList[j.val]? = key.toList[j.val]? := by
    rw [h, List.getElem?_append_right hj, List.getElem?_drop, Nat.add_sub_cancel' hj]
  simpa using hget

/-- Settles O53: the key words are stored from KEY0 on, and the last write is KEYLEN. -/
theorem ldkeyLoadsTheKey : Obligations.LdkeyLoadsTheKey := by
  intro s k hb hk ht
  have hwords := keyWords_length k
  have hfit : 0 + (keyWords k).length ≤ 16 := by omega
  have hsteps : s.turns.length = (keyWords k).length + 1 := by
    rw [ht, Stmt.turns, List.length_append, keyWrites_length, List.length_singleton]
  have hkey : (storeKeyWords 0 (keyWords k) s.key).toList = keyWords k ++ s.key.toList.drop (keyWords k).length := by
    rw [toList_storeKeyWords s.key hfit, List.take_zero, List.nil_append, Nat.zero_add]
  obtain ⟨r, hrun⟩ := run_keyWrites 1 hb hfit ht
  have hlast := step_write { s with
    key := storeKeyWords 0 (keyWords k) s.key
    turns := [wrTurn (offsetOf .keyLen) (BitVec.ofNat 32 k.length)]
    resp := r } _ .keyLen _ [] (regAt_offsetOf _) (.inr hb) rfl
  rw [hsteps, hrun, run_one, hlast]
  refine ⟨_, rfl, keyBytes_of_keyWords (keyLen_of_length hk) hkey, keyLen_of_length hk, rfl, fun j hj => ?_, rfl⟩
  exact getElem_of_toList_eq_append_drop hkey (by omega)

end Sys2Proof.Machine

/-! ## Command model: acceptance, the write lock, the busy window and completion

Proofs of O22, O23, O7, O8, O9, O49, O50 and O51: first what a completion can do, then acceptance and the lock at the
port, then what a command in progress keeps over host transactions. -/

namespace Sys2Proof.Machine

/-! ### Completion -/

/-- Settles O22: a completion writes what an EXEC_op or an error report writes, and none of these fields is among it. -/
theorem everyCompletionEndsItsCommand : Obligations.EveryCompletionEndsItsCommand := by
  intro i s
  rw [exec_eq_complete]
  rcases complete_cases (execResult i s) s with ⟨u, hu, h⟩ | ⟨e, _, h⟩
  · obtain ⟨-, hie, -, -, hwbusy, -, hlastop, hturns, hresp, hfree⟩ := execResult_frame i s u hu
    exact ⟨_, h, rfl, rfl, rfl, hie, hwbusy, hlastop, hturns, hresp, hfree⟩
  · exact ⟨_, h, rfl, rfl, rfl, rfl, rfl, rfl, rfl, rfl, rfl⟩

/-- Settles O23: a completion without error leaves ERR as it was, so one that ends with ERR is an error report. -/
theorem errorCompletionWritesOnlyStatus : Obligations.ErrorCompletionWritesOnlyStatus := by
  intro i s t hs hexec ht
  rw [exec_eq_complete] at hexec
  rcases complete_cases (execResult i s) s with ⟨u, hu, h⟩ | ⟨e, _, h⟩
  · obtain rfl := Host.Outcome.next.inj (h.symm.trans hexec)
    obtain ⟨-, -, -, herr, -⟩ := execResult_frame i s u hu
    rw [finish_err, herr, hs] at ht
    exact absurd ht (by simp)
  · obtain rfl := Host.Outcome.next.inj (h.symm.trans hexec)
    refine ⟨rfl, ?_⟩
    rw [finish_errcode, reportError_errcode]
    cases e <;> decide

/-! ### Acceptance -/

/-- The legal words are the numbers 0 to 5 and 15 (30_encoding.md R92, R93). -/
theorem legal_eq_decide (w : Word) : legal w = (decide (w.toNat < 6) || decide (w.toNat = 15)) := by
  rw [Bool.eq_iff_iff, legal_iff, rsv_zero, op_toNat, Bool.or_eq_true, decide_eq_true_iff, decide_eq_true_iff]
  omega

/-- Settles O7: on an idle block a CMD write is an acceptance, and its verdict is a condition on the word's number. -/
theorem acceptanceOfACommand : Obligations.AcceptanceOfACommand := by
  intro s w rest hb ht
  refine ⟨_, step_write s 0x0C .cmd w rest (regAt_offsetOf .cmd) (.inr hb) ht, rfl, ?_⟩
  rw [← legal_eq_decide]
  rfl

/-! ### The write lock -/

/-- The locked registers are CMD and those at 0x14 to 0x2C and 0x40 to 0x90 (40_command_model.md R114). -/
theorem locked_iff (r : Reg) :
    locked r = true ↔ (offsetOf r).toNat = 0x0C ∨ 0x14 ≤ (offsetOf r).toNat ∧ (offsetOf r).toNat ≤ 0x2C ∨
      0x40 ≤ (offsetOf r).toNat ∧ (offsetOf r).toNat ≤ 0x90 := by
  cases r with
  | key j => revert j; decide
  | digest j => revert j; decide
  | _ => decide

/-- Every aligned offset of the locked ranges holds a locked register. -/
theorem exists_locked_reg {off : BitVec 8} (hal : off.toNat % 4 = 0)
    (h : off.toNat = 0x0C ∨ 0x14 ≤ off.toNat ∧ off.toNat ≤ 0x2C ∨ 0x40 ≤ off.toNat ∧ off.toNat ≤ 0x90) :
    ∃ r, regAt off = some r ∧ locked r = true := by
  have hreg : regAt off ≠ none := by
    rw [Ne, regAt_eq_none_iff]
    omega
  obtain ⟨r, hr⟩ := Option.ne_none_iff_exists'.mp hreg
  exact ⟨r, hr, (locked_iff r).mpr (offsetOf_of_regAt off r hr ▸ h)⟩

/-- An idle block stores a write to any register in that register. -/
theorem step_write_idle {s : State} (r : Reg) (v : Word) (rest : List Turn) (hb : busy s = false) :
    step { s with turns := .host (writeReq (offsetOf r) v) :: rest } =
      .next { storeReg r v s with turns := rest, resp := some ⟨none, false⟩ } := by
  have hwrite := step_write { s with turns := .host (writeReq (offsetOf r) v) :: rest } (offsetOf r) r v rest
    (regAt_offsetOf r) (.inr hb) rfl
  rw [hwrite, storeReg_turns r v s]

/-- Settles O8: CMD is locked. -/
theorem commandWriteWhileBusyIsDropped : Obligations.CommandWriteWhileBusyIsDropped := fun s w rest hb ht =>
  step_locked s 0x0C .cmd w rest (regAt_offsetOf .cmd) rfl hb ht

/-- Settles O9: busy, the offset holds a locked register; idle, the write is the store to the register it names. -/
theorem lockedRegistersKeepTheirValueWhileBusy : Obligations.LockedRegistersKeepTheirValueWhileBusy := by
  refine ⟨fun s off v rest hal hoff hb ht => ?_, fun s v j k rest hb => ?_⟩
  · obtain ⟨r, hr, hl⟩ := exists_locked_reg hal hoff
    exact step_locked s off r v rest hr hl hb ht
  · have hstored := fun r => step_write_idle r v rest hb
    exact ⟨hstored .cmd, hstored .keyLen, hstored .step, hstored .offset, hstored .timeLo, hstored .timeHi,
      hstored .counterLo, hstored .counterHi, hstored (.key j), hstored (.digest k)⟩

/-! ### A command in progress over host transactions -/

/-- What host transactions keep of a block with a command in progress (40_command_model.md R113, R115); ERR and ERRCODE
can only be cleared. -/
structure CommandKept (s t : State) : Prop where
  eng : t.eng = s.eng
  lastop : t.lastop = s.lastop
  operands : SameOperands s t
  results : SameResults s t
  err : s.err = false → t.err = false
  errcode : s.errcode = 0 → t.errcode = 0

/-- The schedule is no part of the command. -/
theorem CommandKept.of_turns (s : State) (ts : List Turn) : CommandKept s { s with turns := ts } :=
  ⟨rfl, rfl, ⟨rfl, rfl, rfl, rfl, rfl, rfl, rfl, rfl, rfl⟩, ⟨rfl, rfl, rfl, rfl, rfl, rfl⟩, id, id⟩

/-- What two runs of transactions keep, one after the other, both together keep. -/
theorem CommandKept.trans {a b c : State} (hab : CommandKept a b) (hbc : CommandKept b c) : CommandKept a c where
  eng := hbc.eng.trans hab.eng
  lastop := hbc.lastop.trans hab.lastop
  operands := hab.operands.trans hbc.operands
  results := hab.results.trans hbc.results
  err := hbc.err ∘ hab.err
  errcode := hbc.errcode ∘ hab.errcode

/-- One transaction keeps the command in progress. -/
theorem commandKept_serve (q : BusReq) {s : State} (hb : busy s = true) : CommandKept s (serve q s) := by
  obtain ⟨heng, hlastop, hops, hres, herr, hcode⟩ := serve_busy q s hb
  exact ⟨heng, hlastop, hops, hres, herr, hcode⟩

/-- Any number of transactions keeps the command in progress. -/
theorem run_hosts_commandKept (n : Nat) {qs : List BusReq} {s : State} {rest : List Turn} (hb : busy s = true)
    (ht : s.turns = qs.map .host ++ rest) :
    ∃ t, runSteps (qs.length + n) s = runSteps n t ∧ CommandKept s t ∧ t.turns = rest := by
  induction qs generalizing s with
  | nil => exact ⟨s, by rw [List.length_nil, Nat.zero_add], CommandKept.of_turns s s.turns, ht⟩
  | cons q qs ih =>
    have hstep : CommandKept s (serve q { s with turns := qs.map .host ++ rest }) :=
      (CommandKept.of_turns s _).trans (commandKept_serve q hb)
    have hbusy : busy (serve q { s with turns := qs.map .host ++ rest }) = true := by
      rw [busy, hstep.eng]
      exact hb
    obtain ⟨t, hrun, hkept, hturns⟩ := ih hbusy (serve_turns q _)
    refine ⟨t, ?_, hstep.trans hkept, hturns⟩
    rw [List.length_cons, Nat.add_right_comm]
    exact (run_host _ ht).trans hrun

/-- Settles O49: a run of as many steps as transactions ends where they have kept the command. -/
theorem registersAreStableWhileBusy : Obligations.RegistersAreStableWhileBusy := by
  intro qs s rest hb ht
  obtain ⟨t, hrun, hkept, hturns⟩ := run_hosts_commandKept 0 hb ht
  exact ⟨t, hrun, hkept.eng, hkept.lastop, hkept.operands, hkept.results, hturns⟩

/-! ### What a completion does not read -/

/-- The operand and result registers, ERR and ERRCODE of `s`, with everything else of `h`. -/
def State.withRestOf (s h : State) : State :=
  { h with
    err := s.err, errcode := s.errcode
    keyLen := s.keyLen, stepReg := s.stepReg, offsetReg := s.offsetReg, timeLo := s.timeLo, timeHi := s.timeHi
    counterLo := s.counterLo, counterHi := s.counterHi, key := s.key, digest := s.digest
    trunc := s.trunc, code := s.code, codeBcd := s.codeBcd, legacyLen := s.legacyLen, tofs := s.tofs, valid := s.valid }

/-- A block with the operands, results and error flags of `s` is `s` but for what `withRestOf` takes from it. -/
theorem eq_withRestOf {s t : State} (hops : SameOperands s t) (hres : SameResults s t) (herr : t.err = s.err)
    (hcode : t.errcode = s.errcode) : t = s.withRestOf t := by
  simp only [State.withRestOf, ← hops.keyLen, ← hops.step, ← hops.offset, ← hops.timeLo, ← hops.timeHi,
    ← hops.counterLo, ← hops.counterHi, ← hops.key, ← hops.digest, ← hres.trunc, ← hres.code, ← hres.codeBcd,
    ← hres.legacyLen, ← hres.tofs, ← hres.valid, ← herr, ← hcode]

/-- HOTP for a counter reads and writes nothing outside operands, results and error flags. -/
theorem hotpOfCounter_withRestOf (c : BitVec 64) (s h : State) :
    hotpOfCounter c (s.withRestOf h) = (hotpOfCounter c s).map (·.withRestOf h) := by
  have hd : digestOfCounter c (s.withRestOf h) = digestOfCounter c s := rfl
  simp only [hotpOfCounter, hd]
  cases digestOfCounter c s <;> rfl

/-- No EXEC_op reads or writes anything else: it is a function of the operand and result registers (40_command_model.md
R113). -/
theorem execResult_withRestOf (i : Instr) (s h : State) :
    execResult i (s.withRestOf h) = (execResult i s).map (·.withRestOf h) := by
  have hcounter : nextCounter (s.withRestOf h) = nextCounter s := rfl
  have hdigest : digestOfCounter (counterOf s) (s.withRestOf h) = digestOfCounter (counterOf s) s := rfl
  cases i with
  | encode =>
    simp only [execResult, encodeResult, hcounter]
    cases nextCounter s <;> rfl
  | hmac =>
    show (digestOfCounter (counterOf s) (s.withRestOf h)).map _ = _
    simp only [execResult, hmacResult, hdigest]
    cases digestOfCounter (counterOf s) s <;> rfl
  | hotp => exact hotpOfCounter_withRestOf (counterOf s) s h
  | totp =>
    simp only [execResult, totpResult, hcounter]
    cases nextCounter s with
    | error e => rfl
    | ok c =>
      simp only [hotpOfCounter_withRestOf]
      cases hotpOfCounter c s <;> rfl
  | _ => rfl

/-- A completion carries everything but operands, results and error flags through, apart from DONE and ENG
(40_command_model.md R116). -/
theorem exec_withRestOf (i : Instr) (s h : State) :
    ∃ u, exec i s = .next u ∧ exec i (s.withRestOf h) = .next (finish (u.withRestOf h)) := by
  rw [exec_eq_complete, exec_eq_complete, execResult_withRestOf]
  cases execResult i s with
  | ok u => exact ⟨_, rfl, rfl⟩
  | error e => exact ⟨_, rfl, rfl⟩

/-- Settles O50: the transactions keep the operands, the results and the cleared error flags, and the completion reads
nothing else. -/
theorem busyCommandCompletesWhateverTheHostDoes : Obligations.BusyCommandCompletesWhateverTheHostDoes := by
  intro qs s i _ heng herr hcode ht
  obtain ⟨v, hrun, hkept, hturns⟩ :=
    run_hosts_commandKept 1 (rest := []) (busy_busy heng) (by rw [ht, List.append_nil])
  have hv : v = s.withRestOf v := eq_withRestOf hkept.operands hkept.results
    ((hkept.err herr).trans herr.symm) ((hkept.errcode hcode).trans hcode.symm)
  obtain ⟨u, hu, hexec⟩ := exec_withRestOf i s v
  have hlast := calc runSteps (qs.length + 1) s
    _ = step v := hrun.trans (run_one v)
    _ = exec i v := (step_nil hturns).trans (engineTurn_command (hkept.eng.trans heng))
    _ = .next (finish (u.withRestOf v)) := (congrArg (exec i) hv).trans hexec
  exact ⟨_, u, hu, hlast, rfl, rfl, rfl, rfl, ⟨rfl, rfl, rfl, rfl, rfl, rfl, rfl, rfl, rfl⟩,
    ⟨rfl, rfl, rfl, rfl, rfl, rfl⟩⟩

/-! ### A transaction and a completion of one clock cycle -/

/-- A step that leaves a command in progress, and the engine's turn next, is followed by that command's completion. -/
theorem run_step_then_engine {s t : State} {op : BitVec 4} {ok : Bool} {rest : List Turn} (h : step s = .next t)
    (heng : t.eng = .busy op ok) (ht : t.turns = .engine :: rest) :
    runSteps 2 s = exec (commandOf op ok) { t with turns := rest } :=
  calc runSteps 2 s
    _ = step t := (run_succ 1 h).trans (run_one t)
    _ = engineTurn { t with turns := rest } := step_cons ht
    _ = _ := engineTurn_busy heng

/-- Settles O51: each write leaves the command in ENG, so its completion follows on what the write left. -/
theorem sameCycleTransactionComesFirst : Obligations.SameCycleTransactionComesFirst := by
  refine fun s op ok off v rest heng => ⟨fun ht => ?_, fun hal hoff ht => ?_⟩
  · obtain ⟨hwrite, -⟩ := statusWriteClearsTheNamedBits s v (.engine :: rest)
    obtain ⟨_, hstep, -, rfl⟩ := hwrite ht
    rw [run_step_then_engine hstep heng rfl]
    obtain ⟨t, hexec, hidle, hdone, -⟩ := exec_completes (commandOf op ok) _
    exact ⟨t, hexec, hdone, hidle, hexec⟩
  · obtain ⟨r, hr, hl⟩ := exists_locked_reg hal hoff
    rw [run_step_then_engine (step_locked s off r v _ hr hl (busy_busy heng) ht) heng rfl]
    obtain ⟨t, hexec, -, -, hdone, -, hwbusy, -⟩ := everyCompletionEndsItsCommand (commandOf op ok) _
    exact ⟨t, hexec, hdone, hwbusy, hexec⟩

end Sys2Proof.Machine

/-! ## Counter encoder: ENCODE, its monotonicity and the counter message

Proofs of O26, O27 and O28: first the exact sum that the encoder checks and what ENCODE does with it, then the byte
strings of words and their numbers. -/

namespace Sys2Proof.Machine

/-! ### The sum of quotient and offset -/

/-- The exact sum `q + ofs` of the counter function, before its range check (41_counter_encoder.md R131). -/
def counterSum (s : State) : Int := (timeOf s / effectiveStep s : Nat) + offsetOfCounter s

/-- ENCODE writes the sum where it is a 64-bit number, and reports INVALID_COUNTER elsewhere (41_counter_encoder.md
R133). -/
theorem exec_encode_cases (s : State) :
    (∃ c : BitVec 64, (c.toNat : Int) = counterSum s ∧ exec .encode s = .next (finish (putCounter c s))) ∨
      ¬(0 ≤ counterSum s ∧ counterSum s ≤ 2 ^ 64 - 1) ∧
        exec .encode s = .next (finish (reportError .invalidCounter s)) := by
  rcases nextCounter_cases s with ⟨c, hok, hc⟩ | ⟨hbad, hrange⟩
  · exact .inl ⟨c, hc, exec_encode_ok hok⟩
  · exact .inr ⟨hrange, exec_encode_bad hbad⟩

/-- STEP = 0 selects 30 (41_counter_encoder.md R130). -/
theorem effectiveStep_eq (s : State) :
    (effectiveStep s : Int) = if s.stepReg.toNat = 0 then 30 else (s.stepReg.toNat : Int) := by
  have hzero : s.stepReg = 0 ↔ s.stepReg.toNat = 0 := BitVec.toNat_inj.symm
  simp only [effectiveStep, hzero, Nat.cast_ite, Nat.cast_ofNat]

/-- OFFSET is read in two's complement (10_state.md R37). -/
theorem offsetOfCounter_eq (s : State) : offsetOfCounter s =
    if s.offsetReg.toNat < 2 ^ 31 then (s.offsetReg.toNat : Int) else s.offsetReg.toNat - 2 ^ 32 := by
  rw [offsetOfCounter, BitVec.toInt_eq_toNat_cond]
  split <;> split <;> omega

/-- The sum on the numbers of the registers. -/
theorem counterSum_eq (s : State) :
    counterSum s = (s.timeHi.toNat * 2 ^ 32 + s.timeLo.toNat : Int) /
        (if s.stepReg.toNat = 0 then 30 else (s.stepReg.toNat : Int)) +
      if s.offsetReg.toNat < 2 ^ 31 then (s.offsetReg.toNat : Int) else s.offsetReg.toNat - 2 ^ 32 := by
  rw [counterSum, Int.natCast_div, effectiveStep_eq, offsetOfCounter_eq, timeOf]
  norm_cast

/-- The two counter registers together hold the number that was put there (10_state.md R39). -/
theorem putCounter_toNat (c : BitVec 64) (s : State) :
    (putCounter c s).counterHi.toNat * 2 ^ 32 + (putCounter c s).counterLo.toNat = c.toNat := by
  rw [← toNat_append_add]
  exact congrArg BitVec.toNat (counterOf_put c s)

/-- Settles O26: the case of ENCODE is the range of the sum, which the 64 bits of a counter bound. -/
theorem encodeWritesTheCounter : Obligations.EncodeWritesTheCounter := by
  refine ⟨rfl, fun s => ?_⟩
  intro T S ofs c
  have hsum : counterSum s = c := counterSum_eq s
  rcases exec_encode_cases s with ⟨v, hv, hexec⟩ | ⟨hrange, hexec⟩
  · have hput := (congrArg Nat.cast (putCounter_toNat v s)).trans (hv.trans hsum)
    have hrange : 0 ≤ c ∧ c ≤ 2 ^ 64 - 1 := by omega
    exact ⟨fun _ => ⟨_, hexec, hput, rfl⟩, fun hc => absurd hrange hc⟩
  · exact ⟨fun hc => absurd (hsum ▸ hc) hrange, fun _ => hexec⟩

/-! ### Monotonicity -/

/-- A later time gives no smaller sum. -/
theorem counterSum_mono {s : State} {hi lo : Word} (h : timeOf s ≤ timeOf { s with timeHi := hi, timeLo := lo }) :
    counterSum s ≤ counterSum { s with timeHi := hi, timeLo := lo } :=
  Int.add_le_add_right (Int.ofNat_le.mpr (Nat.div_le_div_right h)) _

/-- After acceptance, which clears ERR, the flag tells the two ends of ENCODE apart. -/
theorem encode_err_iff {s t : State} (hs : s.err = false) (h : exec .encode s = .next t) :
    (t.err = true ↔ ¬(0 ≤ counterSum s ∧ counterSum s ≤ 2 ^ 64 - 1)) ∧
      (t.err = false → ((counterOf t).toNat : Int) = counterSum s) := by
  rcases exec_encode_cases s with ⟨c, hc, hexec⟩ | ⟨hrange, hexec⟩
  · obtain rfl := Host.Outcome.next.inj (hexec.symm.trans h)
    have hput : counterOf (finish (putCounter c s)) = c := counterOf_put c s
    have hrange : 0 ≤ counterSum s ∧ counterSum s ≤ 2 ^ 64 - 1 := by omega
    exact ⟨iff_of_false (by simp [hs]) (not_not_intro hrange), fun _ => by rw [hput, hc]⟩
  · obtain rfl := Host.Outcome.next.inj (hexec.symm.trans h)
    exact ⟨iff_of_true rfl hrange, fun hno => absurd hno (by simp)⟩

/-- Settles O27: the sum grows with the time, so it leaves the range below only at earlier times and above only at later
ones. -/
theorem encodeIsMonotoneInTime : Obligations.EncodeIsMonotoneInTime := by
  intro s t t' hi lo s' htime hs hexec hexec'
  have hmono : counterSum s ≤ counterSum s' := counterSum_mono htime
  obtain ⟨herr, hcounter⟩ := encode_err_iff hs hexec
  obtain ⟨herr', hcounter'⟩ := encode_err_iff (s := s') hs hexec'
  refine ⟨fun ht ht' => ?_, fun _ hneg => ?_, fun ht hpos => ?_⟩
  · have hc := hcounter ht
    have hc' := hcounter' ht'
    omega
  · have hneg : counterSum s' < 0 := hneg
    rw [herr]
    omega
  · have hpos : 0 ≤ counterSum s := hpos
    rw [herr] at ht
    rw [herr']
    omega

/-! ### The counter message -/

/-- A big-endian number is the number of its front, moved up by the bytes behind it, and theirs. -/
theorem beNat_append (l r : List Byte) : beNat (l ++ r) = beNat l * 256 ^ r.length + beNat r := by
  induction r using List.reverseRecOn with
  | nil => simp [beNat]
  | append_singleton r b ih =>
    have hsnoc : ∀ d : List Byte, beNat (d ++ [b]) = beNat d * 256 + b.toNat := fun d => by
      simp only [beNat, List.foldl_append, List.foldl_cons, List.foldl_nil]
    rw [← List.append_assoc, hsnoc, hsnoc, ih, List.length_append, List.length_singleton]
    ring

/-- The bytes of a word have its number. -/
theorem beNat_be32 (w : Word) : beNat (be32 w) = w.toNat := by
  conv_rhs => rw [← pack32_be32 w, pack32_toNat]
  simp only [beNat, be32, List.foldl_cons, List.foldl_nil]
  omega

/-- The eight bytes of two words put together are those of the first, then those of the second. -/
theorem be64_append (hi lo : Word) : be64 (hi ++ lo) = be32 hi ++ be32 lo := by
  rw [be64, BitVec.extractLsb'_append_eq_left, BitVec.extractLsb'_append_eq_right]

/-- Every 64-bit value is two words put together. -/
theorem exists_eq_append (C : BitVec 64) : ∃ hi lo : Word, C = hi ++ lo :=
  ⟨C.extractLsb' 32 32, C.extractLsb' 0 32, (BitVec.extractLsb'_append_extractLsb' (w := 32) (len := 32)).symm⟩

/-- The eight bytes of a 64-bit value have its number. -/
theorem beNat_be64 (C : BitVec 64) : beNat (be64 C) = C.toNat := by
  obtain ⟨hi, lo, rfl⟩ := exists_eq_append C
  rw [be64_append, beNat_append, beNat_be32, beNat_be32, be32_length, toNat_append_add]
  rfl

/-- Byte i of a 64-bit value, from the top (20_memory.md R72). -/
theorem byteAt_be64 (C : BitVec 64) {i : Nat} (h : i < 8) : byteAt (be64 C) i = C.extractLsb' (56 - 8 * i) 8 := by
  obtain ⟨hi, lo, rfl⟩ := exists_eq_append C
  have hbyte : byteAt (be64 (hi ++ lo)) i = ([hi, lo].getD (i / 4) 0).extractLsb' (24 - 8 * (i % 4)) 8 := by
    rw [← flatMap_getD, be64_append]
    rfl
  rw [hbyte]
  by_cases hfront : i < 4
  · rw [BitVec.extractLsb'_append_eq_of_le (by omega), show i / 4 = 0 by omega,
      show 24 - 8 * (i % 4) = 56 - 8 * i - 32 by omega]
    rfl
  · rw [BitVec.extractLsb'_append_eq_of_add_le (by omega), show i / 4 = 1 by omega,
      show 24 - 8 * (i % 4) = 56 - 8 * i by omega]
    rfl

/-- Settles O28: the message as a number, byte by byte, and as the two counter registers. -/
theorem counterMessageIsBigEndian : Obligations.CounterMessageIsBigEndian :=
  ⟨fun C => ⟨be64_length C, beNat_be64 C, fun _ h => byteAt_be64 C h⟩,
    fun s => be64_append s.counterHi s.counterLo⟩

end Sys2Proof.Machine

/-! ## HMAC-SHA1: the key, the message schedule, the padding and the digest of HMAC

Proofs of O31, O34, O30, O29 and O33: first what each function of SHA-1 gives on lists of words, then the SHA-1 of a
64-byte block and a few words behind it, of which an HMAC is two. -/

namespace Sys2Proof.Machine

/-! ### The key and the digest -/

/-- Settles O31: the key buffer has 64 bytes, so its first LEN bytes are there. -/
theorem keyIsTheFirstLenBytes : Obligations.KeyIsTheFirstLenBytes := fun s _ hmax =>
  ⟨(keyBytes_length s).trans (Nat.min_eq_left hmax), keyByte s⟩

/-- Settles O34: the two cases of the key-length check, and the digest read back from the registers. -/
theorem hmacWritesTheDigest : Obligations.HmacWritesTheDigest := by
  refine ⟨rfl, fun s => ⟨fun hlegal => ?_, fun hillegal => exec_hmac_bad (keyLegal_no hillegal)⟩⟩
  exact ⟨_, exec_hmac_ok ((keyLegal_iff s).mpr hlegal), digest_put _ (hmacSha1_length _ _) s, rfl⟩

/-! ### The message schedule -/

/-- The word that 42_hmac_sha1.md R145 puts after the words of `ws`, of which the last stands first. -/
def nextWord (ws : List Word) : Word :=
  (ws.getD 2 0 ^^^ ws.getD 7 0 ^^^ ws.getD 13 0 ^^^ ws.getD 15 0).rotateLeft 1

/-- Each turn of the extension puts one new word in front. -/
theorem extendSchedule_succ (n : Nat) (ws : List Word) :
    extendSchedule (n + 1) ws = extendSchedule n (nextWord ws :: ws) := rfl

/-- A word behind the first i, by its place among all. -/
theorem getD_drop (l : List Word) (i k : Nat) : (l.drop i).getD k 0 = l.getD (i + k) 0 := by
  rw [List.getD_eq_getElem?_getD, List.getElem?_drop, ← List.getD_eq_getElem?_getD]

/-- Behind the n new words stand the words that were there. -/
theorem drop_extendSchedule (n : Nat) (ws : List Word) : (extendSchedule n ws).drop n = ws := by
  induction n generalizing ws with
  | zero => rfl
  | succ n ih => rw [extendSchedule_succ, ← List.drop_drop, ih, List.drop_succ_cons, List.drop_zero]

/-- The extension adds n words. -/
theorem extendSchedule_length (n : Nat) (ws : List Word) : (extendSchedule n ws).length = n + ws.length := by
  induction n generalizing ws with
  | zero => exact (Nat.zero_add _).symm
  | succ n ih => rw [extendSchedule_succ, ih, List.length_cons]; omega

/-- Each new word comes from the words that stand behind it. -/
theorem extendSchedule_getD (n : Nat) (ws : List Word) {i : Nat} (hi : i < n) :
    (extendSchedule n ws).getD i 0 = nextWord ((extendSchedule n ws).drop (i + 1)) := by
  induction n generalizing ws with
  | zero => omega
  | succ n ih =>
    rw [extendSchedule_succ]
    by_cases hlast : i = n
    · subst hlast
      have hhead := getD_drop (extendSchedule i (nextWord ws :: ws)) i 0
      rw [drop_extendSchedule, Nat.add_zero] at hhead
      rw [← List.drop_drop, drop_extendSchedule, ← hhead]
      rfl
    · exact ih _ (by omega)

/-- The schedule begins with the block. -/
theorem block_begins_schedule (block : List Word) : block <+: schedule block := by
  rw [← List.reverse_suffix, schedule, List.reverse_reverse]
  conv_lhs => rw [← drop_extendSchedule 64 block.reverse]
  exact List.drop_suffix _ _

/-- A block of sixteen words has a schedule of eighty. -/
theorem schedule_length {block : List Word} (h : block.length = 16) : (schedule block).length = 80 := by
  rw [schedule, List.length_reverse, extendSchedule_length, List.length_reverse, h]

/-- Word t of a schedule stands 79 - t places down the words that `schedule` turns round. -/
theorem schedule_getD {block : List Word} (h : block.length = 16) {t : Nat} (ht : t < 80) :
    (schedule block).getD t 0 = (extendSchedule 64 block.reverse).getD (79 - t) 0 := by
  have hlen : (extendSchedule 64 block.reverse).length = 80 := by
    rw [extendSchedule_length, List.length_reverse, h]
  rw [schedule, List.getD_reverse _ (by omega), hlen]

/-- Settles O30: the first sixteen words are the block's, the others are new words of `extendSchedule`. -/
theorem messageScheduleRecurrence : Obligations.MessageScheduleRecurrence := by
  intro B hB W
  have hblock : (wordsOf B).length = 16 := wordsOf_length 16 B hB
  refine ⟨schedule_length hblock, fun t ht => ?_, fun t ht ht' => ?_⟩
  · have hword : W.getD t 0 = (wordsOf B).getD t 0 := by
      obtain ⟨tail, htail⟩ := block_begins_schedule (wordsOf B)
      rw [← List.getD_append (wordsOf B) tail 0 t (by omega), htail]
    rw [hword, wordsOf_getD B t (by omega), pack32_toNat]
  · have hback (k : Nat) (hk : k ≤ 15) : W.getD (t - (k + 1)) 0 =
        ((extendSchedule 64 (wordsOf B).reverse).drop (79 - t + 1)).getD k 0 := by
      rw [schedule_getD hblock (by omega), getD_drop]
      congr 1
      omega
    rw [schedule_getD hblock ht', extendSchedule_getD 64 _ (by omega), nextWord, ← hback 2 (by decide),
      ← hback 7 (by decide), ← hback 13 (by decide), ← hback 15 (by decide)]

/-! ### Padding and blocks -/

/-- The padding takes the least number of zero bytes that completes 64-byte blocks (42_hmac_sha1.md R141). -/
theorem zeroPadding_least (len : Nat) :
    (len + 1 + zeroPadding len + 8) % 64 = 0 ∧ ∀ z, z < zeroPadding len → (len + 1 + z + 8) % 64 ≠ 0 := by
  unfold zeroPadding
  exact ⟨by omega, fun z hz => by omega⟩

/-- The cut into blocks of sixteen words drops no word. -/
theorem blocksOf_flatten (n : Nat) {ws : List Word} (h : ws.length = 16 * n) : (blocksOf n ws).flatten = ws := by
  induction n generalizing ws with
  | zero => exact (List.eq_nil_of_length_eq_zero h).symm
  | succ n ih =>
    rw [blocksOf, List.flatten_cons, ih (by rw [List.length_drop]; omega), List.take_append_drop]

/-- Each block has sixteen words. -/
theorem length_of_mem_blocksOf (n : Nat) {ws b : List Word} (h : ws.length = 16 * n) (hb : b ∈ blocksOf n ws) :
    b.length = 16 := by
  induction n generalizing ws with
  | zero => cases hb
  | succ n ih =>
    rcases List.mem_cons.mp hb with rfl | hb
    · rw [List.length_take]; omega
    · exact ih (by rw [List.length_drop]; omega) hb

/-- Settles O29: the padded string is a whole number of blocks, so cutting it loses nothing. -/
theorem sha1PaddingAndBlocks : Obligations.Sha1PaddingAndBlocks := by
  intro m hm
  have hpad : sha1Pad m = m ++ [0x80#8] ++ List.replicate (zeroPadding m.length) 0#8 ++
      be64 (BitVec.ofNat 64 (8 * m.length)) := by simp [sha1Pad]
  obtain ⟨hfull, hleast⟩ := zeroPadding_least m.length
  have hlen : (sha1Pad m).length = 64 * ((sha1Pad m).length / 64) := by rw [pad_length]; omega
  have hbytes : (sha1Pad m).length = 4 * (16 * ((sha1Pad m).length / 64)) := by omega
  have hwords := wordsOf_length _ _ hbytes
  refine ⟨⟨_, hpad, hfull, hleast⟩, ?_, ?_, fun b => length_of_mem_blocksOf _ hwords⟩
  · have hlast : (sha1Pad m).drop ((sha1Pad m).length - 8) = be64 (BitVec.ofNat 64 (8 * m.length)) := by
      rw [hpad]
      exact List.drop_left' (by rw [List.length_append (bs := be64 _), be64_length, Nat.add_sub_cancel])
    rw [hlast, beNat_be64, BitVec.toNat_ofNat, Nat.mod_eq_of_lt hm]
  · rw [blocksOf_flatten _ hwords, flatMap_wordsOf _ _ hbytes]

/-! ### One block and a few words behind it -/

/-- The second block of the padded message of one 64-byte block and the words `ws`, at most thirteen, behind it: the
upper half of the bit length is 0. -/
def secondBlock (ws : List Word) : List Word :=
  ws ++ [0x80000000] ++ List.replicate (14 - ws.length) 0 ++ [BitVec.ofNat 32 (512 + 32 * ws.length)]

/-- It is one block. -/
theorem secondBlock_length {ws : List Word} (h : ws.length ≤ 13) : (secondBlock ws).length = 16 := by
  simp [secondBlock]; omega

/-- Zero words are zero bytes. -/
theorem flatMap_be32_replicate_zero (n : Nat) :
    (List.replicate n (0 : Word)).flatMap be32 = List.replicate (4 * n) 0#8 := by
  induction n with
  | zero => rfl
  | succ n ih =>
    rw [List.replicate_succ, List.flatMap_cons, ih, Nat.mul_succ, Nat.add_comm, ← List.replicate_append_replicate]
    rfl

/-- A number below 2^32 as eight bytes: four zero bytes and those of its word. -/
theorem be64_ofNat {n : Nat} (h : n < 2 ^ 32) : be64 (BitVec.ofNat 64 n) = be32 0 ++ be32 (BitVec.ofNat 32 n) := by
  have hsplit : BitVec.ofNat 64 n = (0 : Word) ++ BitVec.ofNat 32 n := by
    apply BitVec.eq_of_toNat_eq
    rw [toNat_append_add]
    simp
    omega
  rw [hsplit, be64_append]

/-- The padding that 42_hmac_sha1.md R151 derives. -/
theorem sha1Pad_block_words {k : List Byte} {ws : List Word} (hk : k.length = 64) (hws : ws.length ≤ 13) :
    sha1Pad (k ++ ws.flatMap be32) = k ++ (secondBlock ws).flatMap be32 := by
  have hlen : (k ++ ws.flatMap be32).length = 64 + 4 * ws.length := by
    rw [List.length_append, flatMap_be32_length, hk]
  have hzeros : zeroPadding (64 + 4 * ws.length) = 3 + 4 * (13 - ws.length) := by unfold zeroPadding; omega
  have hbits : 8 * (64 + 4 * ws.length) = 512 + 32 * ws.length := by omega
  rw [sha1Pad, hlen, hzeros, hbits, be64_ofNat (by omega), secondBlock,
    show 14 - ws.length = 13 - ws.length + 1 by omega, List.replicate_succ', ← List.replicate_append_replicate,
    ← flatMap_be32_replicate_zero]
  simp [be32]

/-- The two compressions of such a message. -/
def twoBlockChain (k : List Byte) (ws : List Word) : Chain :=
  compress (compress sha1Iv (wordsOf k)) (secondBlock ws)

/-- Its blocks are the first 64 bytes and the second block, so it takes those two compressions (42_hmac_sha1.md
R147). -/
theorem sha1Chain_block_words {k : List Byte} {ws : List Word} (hk : k.length = 64) (hws : ws.length ≤ 13) :
    sha1Chain (k ++ ws.flatMap be32) = twoBlockChain k ws := by
  have hfirst : (wordsOf k).length = 16 := wordsOf_length 16 k hk
  have hsecond : (secondBlock ws).length = 16 := secondBlock_length hws
  have hblocks : (k ++ (secondBlock ws).flatMap be32).length / 64 = 2 := by
    rw [List.length_append, flatMap_be32_length, hk, hsecond]
  rw [sha1Chain, sha1Pad_block_words hk hws, hblocks, wordsOf_append 16 _ _ hk, wordsOf_flatMap_be32, blocksOf,
    blocksOf, blocksOf, List.take_left' hfirst, List.drop_left' hfirst, List.take_of_length_le hsecond.le]
  rfl

/-- The five words of a chaining value. -/
def Chain.words (h : Chain) : List Word := [h.a, h.b, h.c, h.d, h.e]

/-- They are five, so an inner digest fits a second block. -/
theorem Chain.words_length (h : Chain) : h.words.length = 5 := rfl

/-- The SHA-1 of such a message is the bytes of those words. -/
theorem sha1_block_words {k : List Byte} {ws : List Word} (hk : k.length = 64) (hws : ws.length ≤ 13) :
    sha1 (k ++ ws.flatMap be32) = (twoBlockChain k ws).words.flatMap be32 :=
  congrArg Chain.bytes (sha1Chain_block_words hk hws)

/-! ### HMAC -/

/-- HMAC of a message of whole words: two compressions on the inner blocks, two on the outer ones (42_hmac_sha1.md
R151). -/
theorem hmacSha1_words {k : List Byte} {ws : List Word} (hk : k.length ≤ 64) (hws : ws.length ≤ 13) :
    hmacSha1 k (ws.flatMap be32) =
      (twoBlockChain (xorByte 0x5C (padKey k))
        (twoBlockChain (xorByte 0x36 (padKey k)) ws).words).words.flatMap be32 := by
  have hpad (b : Byte) : (xorByte b (padKey k)).length = 64 := (xorByte_length b _).trans (padKey_length hk)
  have hinner (h : Chain) : h.words.length ≤ 13 := by rw [Chain.words_length]; decide
  rw [hmacSha1, sha1_block_words (hpad _) hws, sha1_block_words (hpad _) (hinner _)]

/-- The digest registers are the words of the digest. -/
theorem digest_toList (s : State) : s.digest.toList = wordsOf (digestBytes s) := (wordsOf_flatMap_be32 _).symm

/-- Settles O33: the digest of O34, whose message is the two counter words. -/
theorem hmacIsFourCompressions : Obligations.HmacIsFourCompressions := by
  intro s hmin hmax k0 inner outer
  obtain ⟨t, hexec, hdigest, -⟩ := (hmacWritesTheDigest.2 s).1 ⟨hmin, hmax⟩
  have hkey : (keyBytes s).length = s.keyLen.toNat := (keyBytes_length s).trans (Nat.min_eq_left hmax)
  have hk0 : padKey (keyBytes s) = k0 := by rw [padKey, hkey]
  have hmsg : be64 (counterOf s) = [s.counterHi, s.counterLo].flatMap be32 := be64_append _ _
  have hlast : hmacSha1 (keyBytes s) (be64 (counterOf s)) = outer.words.flatMap be32 := by
    rw [hmsg, hmacSha1_words (hkey.trans_le hmax) (ws := [s.counterHi, s.counterLo]) (by simp), hk0]
    rfl
  refine ⟨t, hexec, ?_⟩
  rw [digest_toList, hdigest, hlast, wordsOf_flatMap_be32]
  rfl

end Sys2Proof.Machine

/-! ## Truncation: TRUNC, HOTP and the code strings

Proofs of O35, O36, O37, O39, O55 and O54: first what TRUNC leaves in the result registers, then HOTP as a truncation of
the digest that HMAC writes, then the strings as the last decimal digits of a number. -/

namespace Sys2Proof.Machine

/-! ### What a truncation leaves in the result registers -/

/-- TRUNC truncates what the digest registers hold, and it never fails (43_truncation.md R186). -/
theorem exec_trunc (s : State) : exec .trunc s = .next (finish (putTruncation (digestBytes s) s)) := rfl

/-- The same, for a digest known beforehand. -/
theorem exec_trunc_of_digest {s : State} {d : List Byte} (h : digestBytes s = d) :
    exec .trunc s = .next (finish (putTruncation d s)) := h ▸ exec_trunc s

/-- Byte k of the digest, in the digest registers (10_state.md R41). -/
theorem byteAt_digestBytes (s : State) (k : Nat) :
    byteAt (digestBytes s) k = (s.digest.toList.getD (k / 4) 0).extractLsb' (24 - 8 * (k % 4)) 8 :=
  flatMap_getD _ k

/-- TRUNC has room for the truncated value (43_truncation.md R181). -/
theorem putTruncation_trunc_toNat (d : List Byte) (s : State) : (putTruncation d s).trunc.toNat = truncValue d := by
  rw [putTruncation_trunc, BitVec.toNat_ofNat, Nat.mod_eq_of_lt (tv_lt d)]

/-- CODE, CODE_BCD and LEGACY_LEN as numbers (43_truncation.md R182 to R184). They depend on the digest alone, so a
truncation of the reset block, which meets the invariant, shows them for every block. -/
theorem putTruncation_results (d : List Byte) (s : State) :
    (putTruncation d s).code.toNat = truncValue d % 1000000 ∧
      (∀ i, i < 6 → (putTruncation d s).codeBcd.toNat / 16 ^ i % 16 = (putTruncation d s).code.toNat / 10 ^ i % 10) ∧
      (putTruncation d s).legacyLen.toNat = legacyLength (truncValue d) := by
  have hinv : BlockInv (putTruncation d State.reset) := invariantHoldsAtReset.putTruncation d
  have hcode := hinv.codeOfTrunc
  have hlegacy := hinv.legacyOfTrunc rfl
  rw [putTruncation_trunc_toNat] at hcode hlegacy
  exact ⟨hcode, hinv.bcdOfCode, hlegacy⟩

/-- Settles O35: the bytes of the digest registers give the offset and the value, from which the other results are
computed. -/
theorem truncWritesTheResults : Obligations.TruncWritesTheResults := by
  refine ⟨rfl, fun s => ?_⟩
  intro d o tv
  have hd (k : Nat) : (byteAt (digestBytes s) k).toNat = d k := congrArg BitVec.toNat (byteAt_digestBytes s k)
  have ho : (truncOffset (digestBytes s)).toNat = o := by rw [off_toNat, hd]
  have htv : truncValue (digestBytes s) = tv := by rw [tv_eq, ho, hd, hd, hd, hd]
  obtain ⟨hcode, hbcd, hlegacy⟩ := putTruncation_results (digestBytes s) s
  rw [htv] at hcode hlegacy
  refine ⟨_, exec_trunc s, (putTruncation_trunc_toNat _ s).trans htv, hcode, hbcd, ?_, ho, rfl, rfl⟩
  rw [finish_legacyLen, hlegacy]
  exact legacy_spec tv

/-! ### The truncated value as a slice of the digest -/

/-- One more byte of a string moves its number up by a byte. -/
theorem beNat_take_succ {d : List Byte} {i : Nat} (h : i < d.length) :
    beNat (d.take (i + 1)) = beNat (d.take i) * 256 + (byteAt d i).toNat := by
  have hbyte : byteAt d i = d[i] := List.getD_eq_getElem d 0 h
  rw [← List.take_concat_get' d i h, beNat_append, hbyte]
  simp [beNat]

/-- A string of n bytes has a number below 256^n. -/
theorem beNat_lt (d : List Byte) : beNat d < 256 ^ d.length := by
  induction d using List.reverseRecOn with
  | nil => decide
  | append_singleton d b ih =>
    have hb : beNat [b] < 256 := by simpa [beNat] using b.isLt
    rw [beNat_append, List.length_append, List.length_singleton, pow_succ]
    omega

/-- The number of a string's front is the string's number without the bytes behind. -/
theorem beNat_take (d : List Byte) (n : Nat) : beNat (d.take n) = beNat d / 256 ^ (d.length - n) := by
  have hback : beNat (d.drop n) < 256 ^ (d.length - n) := List.length_drop ▸ beNat_lt (d.drop n)
  have hsplit : beNat d = beNat (d.take n) * 256 ^ (d.length - n) + beNat (d.drop n) := by
    rw [← List.length_drop, ← beNat_append, List.take_append_drop]
  rw [hsplit, Nat.mul_comm, Nat.mul_add_div (by positivity), Nat.div_eq_of_lt hback, Nat.add_zero]

/-- The truncated value is the last 31 bits of the digest up to byte o + 3 (43_truncation.md R181). -/
theorem truncValue_eq_slice {d : List Byte} (h : d.length = 20) :
    truncValue d = beNat d / 2 ^ (128 - 8 * (truncOffset d).toNat) % 2 ^ 31 := by
  have ho : (truncOffset d).toNat < 16 := (truncOffset d).isLt
  have hpow : 256 ^ (d.length - ((truncOffset d).toNat + 4)) = 2 ^ (128 - 8 * (truncOffset d).toNat) := by
    rw [show 256 = 2 ^ 8 from rfl, ← pow_mul]
    congr 1
    omega
  rw [tv_eq, ← hpow, ← beNat_take, beNat_take_succ (by omega), beNat_take_succ (by omega), beNat_take_succ (by omega),
    beNat_take_succ (by omega)]
  have hbyte (k : Nat) : (byteAt d k).toNat < 256 := (byteAt d k).isLt
  have h1 := hbyte ((truncOffset d).toNat + 1)
  have h2 := hbyte ((truncOffset d).toNat + 2)
  have h3 := hbyte ((truncOffset d).toNat + 3)
  omega

/-- The truncation offset is the low nibble of the last digest register (43_truncation.md R180). -/
theorem truncOffset_digestBytes (s : State) : (truncOffset (digestBytes s)).toNat = s.digest[4].toNat % 16 := by
  have hlast : byteAt (digestBytes s) 19 = s.digest[4].extractLsb' 0 8 := by
    rw [byteAt_digestBytes, List.getD_eq_getElem _ _ (by simp), Vector.getElem_toList]
  rw [off_toNat, hlast, BitVec.extractLsb'_toNat, Nat.shiftRight_zero]
  omega

/-- Settles O36: the offset of TRUNC is in DIGEST4, and its value is a slice of the digest. -/
theorem truncatedValueIsASliceOfTheDigest : Obligations.TruncatedValueIsASliceOfTheDigest := by
  intro s t h
  obtain rfl := Host.Outcome.next.inj ((exec_trunc s).symm.trans h)
  rw [finish_trunc, putTruncation_trunc_toNat, truncValue_eq_slice (digestBytes_length s), truncOffset_digestBytes]

/-! ### HOTP -/

/-- With a legal key HOTP is TRUNC on the block that holds the digest of HMAC (43_truncation.md R187). -/
theorem exec_hotp_eq_trunc {s : State} (h : keyLegal s = true) :
    exec .hotp s = exec .trunc (putDigest (hmacSha1 (keyBytes s) (be64 (counterOf s))) s) := by
  rw [exec_hotp_ok h, exec_trunc, digest_put _ (hmacSha1_length _ _)]

/-- Settles O37: TRUNC leaves the digest that HOTP truncates, so it can be read back; the key check is that of HMAC. -/
theorem hotpWritesDigestAndResults : Obligations.HotpWritesDigestAndResults := by
  refine ⟨rfl, fun s => ⟨fun hlegal => ?_, fun hillegal => exec_hotp_bad (keyLegal_no hillegal)⟩⟩
  have hhotp := exec_hotp_eq_trunc ((keyLegal_iff s).mpr hlegal)
  exact ⟨_, hhotp.trans (exec_trunc _), digest_put _ (hmacSha1_length _ _) s, exec_trunc _⟩

/-- At the head of a run, the CMD write of a command and its completion. -/
theorem run_command {s t : State} {w : Word} {rest : List Turn} (k : Nat) (hb : busy s = false)
    (ht : s.turns = .host (writeReq 0x0C w) :: .engine :: rest)
    (hexec : exec (decode w) (accept w { s with turns := rest, resp := some ⟨none, false⟩ }) = .next t) :
    runSteps (k + 2) s = runSteps k t := by
  have hwrite := step_write s 0x0C .cmd w (.engine :: rest) (regAt_offsetOf .cmd) (.inr hb) ht
  have hengine : engineTurn (accept w { s with turns := rest, resp := some ⟨none, false⟩ }) = .next t :=
    (engineTurn_of_accepted rfl).trans hexec
  exact (run_succ (k + 1) hwrite).trans (run_succ k ((step_cons (t := .engine) (rest := rest) rfl).trans hengine))

/-- Settles O39: HMAC leaves the digest that HOTP truncates, and the acceptance of TRUNC the flags that HOTP's does. -/
theorem hotpEqualsHmacThenTrunc : Obligations.HotpEqualsHmacThenTrunc := by
  intro s rest hb hmin hmax
  have hkey : keyLegal s = true := (keyLegal_iff s).mpr ⟨hmin, hmax⟩
  have hput := digest_put (hmacSha1 (keyBytes s) (be64 (counterOf s))) (hmacSha1_length _ _) s
  have hhotp := run_command (s := { s with turns := .host (writeReq 0x0C 4) :: .engine :: rest }) 0 hb rfl
    (exec_hotp_ok hkey)
  have hhmac := run_command (s := { s with
    turns := .host (writeReq 0x0C 2) :: .engine :: .host (writeReq 0x0C 3) :: .engine :: rest }) 2 hb rfl
    (exec_hmac_ok hkey)
  exact ⟨_, hhotp, rfl, rfl, hhmac.trans (run_command 0 (busy_idle rfl) rfl (exec_trunc_of_digest hput))⟩

/-! ### The last decimal digits of a number -/

/-- The last k decimal digits of v, most significant first, with zeros in front where v has fewer. -/
def decimalTail (k v : Nat) : List Char := (List.range k).reverse.map fun i => Nat.digitChar (v / 10 ^ i % 10)

/-- The last digit stands behind those of the tenth. -/
theorem decimalTail_succ (k v : Nat) : decimalTail (k + 1) v = decimalTail k (v / 10) ++ [Nat.digitChar (v % 10)] := by
  simp only [decimalTail, List.range_succ_eq_map, List.reverse_cons, List.map_append, ← List.map_reverse, List.map_map,
    List.map_cons, List.map_nil, pow_zero, Nat.div_one]
  congr 2
  funext i
  rw [Function.comp_apply, Nat.div_div_eq_div_mul, ← pow_succ']

/-- They are k characters. -/
theorem decimalTail_length (k v : Nat) : (decimalTail k v).length = k := by simp [decimalTail]

/-- Each is a decimal digit. -/
theorem isDigit_of_mem_decimalTail {k v : Nat} {c : Char} (h : c ∈ decimalTail k v) : c.isDigit = true := by
  obtain ⟨i, -, rfl⟩ := List.mem_map.mp h
  rw [Nat.isDigit_digitChar]
  exact decide_eq_true (Nat.mod_lt _ (by decide))

/-- Read back, they are v modulo 10^k. -/
theorem decimalTail_value (k v : Nat) :
    (decimalTail k v).foldl (fun n c => n * 10 + (c.toNat - '0'.toNat)) 0 = v % 10 ^ k := by
  induction k generalizing v with
  | zero => exact (Nat.mod_one v).symm
  | succ k ih =>
    have hdigit : (Nat.digitChar (v % 10)).toNat - '0'.toNat = v % 10 :=
      Nat.toNat_digitChar_sub_48_of_lt_ten (Nat.mod_lt _ (by decide))
    rw [decimalTail_succ, List.foldl_append, ih, List.foldl_cons, List.foldl_nil, hdigit, pow_succ', Nat.mod_mul]
    omega

/-- The last of them are the last digits. -/
theorem drop_decimalTail {k n : Nat} (h : k ≤ n) (v : Nat) : (decimalTail n v).drop (n - k) = decimalTail k v := by
  rw [decimalTail, ← List.map_drop, List.drop_reverse, List.length_range, List.take_range,
    show min (n - (n - k)) n = k by omega]
  rfl

/-- They do not depend on what stands before them. -/
theorem decimalTail_mod {k n : Nat} (h : k ≤ n) (v : Nat) : decimalTail k (v % 10 ^ n) = decimalTail k v := by
  refine List.map_congr_left fun i hi => ?_
  have hi : i < k := List.mem_range.mp (List.mem_reverse.mp hi)
  rw [show n = i + (n - i) by omega, pow_add, Nat.mod_mul_right_div_self, Nat.mod_mod_of_dvd]
  exact dvd_pow_self 10 (by omega)

/-- With enough fuel `countDigits` counts the characters of the decimal form. -/
theorem toDigits_eq_decimalTail_countDigits {f t : Nat} (h : t ≤ f) :
    Nat.toDigits 10 t = decimalTail (countDigits f t) t := by
  induction f generalizing t with
  | zero => obtain rfl := Nat.le_zero.mp h; rfl
  | succ f ih =>
    rw [countDigits]
    split
    · rename_i hsmall
      rw [Nat.toDigits_of_lt_base hsmall, decimalTail_succ, Nat.mod_eq_of_lt hsmall]
      rfl
    · rw [Nat.toDigits_of_base_le (by decide) (by omega), decimalTail_succ, ih (by omega)]

/-- The decimal form is as many last digits as the number has (00_scope.md R11). -/
theorem toDigits_eq_decimalTail (t : Nat) : Nat.toDigits 10 t = decimalTail (ndigits t) t :=
  toDigits_eq_decimalTail_countDigits (Nat.le_refl t)

/-! ### The code strings -/

/-- A decimal digit's character stands that far behind '0'. -/
theorem ofNat_add_eq_digitChar {n : Nat} (h : n < 10) : Char.ofNat ('0'.toNat + n) = Nat.digitChar n := by
  revert n
  decide

/-- Where the nibbles of a CODE_BCD word are decimal digits of v, the padded text is the last six digits of v
(44_totp_and_control.md R205). -/
theorem paddedText_eq_decimalTail {bcd : Word} {v : Nat} (h : ∀ i, i < 6 → bcd.toNat / 16 ^ i % 16 = v / 10 ^ i % 10) :
    paddedText bcd = decimalTail 6 v := by
  refine List.map_congr_left fun i hi => ?_
  rw [h i (List.mem_range.mp (List.mem_reverse.mp hi))]
  exact ofNat_add_eq_digitChar (Nat.mod_lt _ (by decide))

/-- In a state of the invariant the code string is the last six digits of TRUNC (43_truncation.md R182, R183). -/
theorem codeString_eq_decimalTail {s : State} (hs : BlockInv s) : codeString s = decimalTail 6 s.trunc.toNat := by
  have hread : (readReg .codeBcd s).toNat = s.codeBcd.toNat := BitVec.toNat_setWidth_of_le (by decide)
  rw [← decimalTail_mod (Nat.le_refl 6), show 10 ^ 6 = 1000000 from rfl, ← hs.codeOfTrunc]
  exact paddedText_eq_decimalTail fun i hi => hread ▸ hs.bcdOfCode i hi

/-- Settles O55: the string is the last six decimal digits of TRUNC. -/
theorem codeStringIsSixPaddedDigits : Obligations.CodeStringIsSixPaddedDigits := by
  intro s hs
  rw [codeString_eq_decimalTail hs]
  exact ⟨decimalTail_length 6 _, fun c => isDigit_of_mem_decimalTail, decimalTail_value 6 _⟩

/-- LEGACY_LEN is the low field of CODE_INFO (10_state.md R45). -/
theorem legacyLen_of_codeInfo (s : State) : (readReg .codeInfo s).extractLsb' 0 3 = s.legacyLen :=
  BitVec.extractLsb'_append_eq_right

/-- Settles O54: the last min(6, n) of the code's digits are the last of the n digits of TRUNC. -/
theorem legacyStringIsTheLastSixCharacters : Obligations.LegacyStringIsTheLastSixCharacters := by
  intro s hs hvalid
  have hcode : paddedText (readReg .codeBcd s) = decimalTail 6 s.trunc.toNat := codeString_eq_decimalTail hs
  rw [legacyString, legacyText, hcode, legacyLen_of_codeInfo, hs.legacyOfTrunc hvalid, drop_decimalTail (by omega),
    toDigits_eq_decimalTail, decimalTail_length,
    show ndigits s.trunc.toNat - 6 = ndigits s.trunc.toNat - min 6 (ndigits s.trunc.toNat) by omega,
    drop_decimalTail (by omega)]

end Sys2Proof.Machine

/-! ## TOTP and control: NOP, CLEAR, the reserved commands and TOTP

Proofs of O25, O42, O43, O38, O40 and of the negation of O41: first the commands that compute nothing, then TOTP against
its parts ENCODE and HOTP. -/

namespace Sys2Proof.Machine

/-! ### NOP, CLEAR and the reserved commands -/

/-- Settles O25: NOP is a completion without writes. -/
theorem nopCompletesAndDoesNothingElse : Obligations.NopCompletesAndDoesNothingElse := ⟨rfl, fun _ => rfl⟩

/-- CLEAR completes with the erased registers (44_totp_and_control.md R202). -/
theorem exec_clear (s : State) : exec .clear s = .next (finish (eraseAll s)) := rfl

/-- Settles O42: an erased register holds what reset gives it. -/
theorem clearErasesKeyOperandsAndResults : Obligations.ClearErasesKeyOperandsAndResults :=
  ⟨rfl, fun s => ⟨_, exec_clear s, ⟨rfl, rfl, rfl, rfl, rfl, rfl, rfl, rfl, rfl⟩,
    ⟨rfl, rfl, rfl, rfl, rfl, rfl⟩, rfl⟩⟩

/-- The reserved commands are those outside the opcode set (44_totp_and_control.md R203). -/
theorem reserved_not_legal {i : Instr}
    (h : i ∈ [.reserved6, .reserved7, .reserved8, .reserved9, .reservedA, .reservedB, .reservedC, .reservedD,
      .reservedE] ∨ ∃ rsv op, i = .illegalRsv rsv op) : isLegalCommand i = false := by
  rcases h with hmem | ⟨rsv, op, rfl⟩
  · revert i
    decide
  · rfl

/-- Settles O43: every command outside the opcode set has the one illegal completion, and the verdict of a written word
puts it there. -/
theorem reservedCommandsCompleteWithIllegalCmd : Obligations.ReservedCommandsCompleteWithIllegalCmd := by
  refine ⟨fun i s h => exec_illegal (reserved_not_legal h) s, fun s w rest hb hw => ?_⟩
  have hverdict : isLegalCommand (decode w) = false := by
    rw [(decode_fields w).2, legal_eq_decide, Bool.or_eq_false_iff, decide_eq_false_iff_not, decide_eq_false_iff_not]
    omega
  exact run_command (s := { s with turns := .host (writeReq 0x0C w) :: .engine :: rest }) 0 hb rfl
    (exec_illegal hverdict _)

/-! ### TOTP -/

/-- Settles O38: the three answers of TOTP, by the range of the sum and the key length. TRUNC on the digest that TOTP
leaves truncates the same HMAC. -/
theorem totpWritesCounterDigestAndResults : Obligations.TotpWritesCounterDigestAndResults := by
  refine ⟨rfl, fun s => ?_⟩
  intro c
  have hsum : ((timeOf s / effectiveStep s : Nat) : Int) + offsetOfCounter s = c := by rw [Int.natCast_div]
  rcases nextCounter_cases s with ⟨v, hok, hv⟩ | ⟨hbad, hrange⟩
  · rw [hsum] at hv
    refine ⟨fun hc => absurd hc (by omega), fun _ hkey => exec_totp_badkey hok (keyLegal_no hkey), fun _ hkey => ?_⟩
    have hput := digest_put (hmacSha1 (keyBytes s) (be64 v)) (hmacSha1_length _ _)
    have hcounter := counterOf_put v s
    refine ⟨_, exec_totp_ok hok ((keyLegal_iff s).mpr hkey), ?_, ?_, ?_⟩
    · exact (congrArg (fun n : BitVec 64 => (n.toNat : Int)) hcounter).trans hv
    · exact (hput s).trans (congrArg (fun n => hmacSha1 (keyBytes s) (be64 n)) hcounter.symm)
    · exact exec_trunc_of_digest (hput s)
  · rw [hsum] at hrange
    exact ⟨fun _ => exec_totp_bad hbad, fun hc => absurd hc hrange, fun hc => absurd hc hrange⟩

/-- HOTP for a counter known beforehand, legal key. -/
theorem exec_hotp_of_counter {s : State} {c : BitVec 64} (hc : counterOf s = c) (h : keyLegal s = true) :
    exec .hotp s = .next (finish (putTruncation (hmacSha1 (keyBytes s) (be64 c))
      (putDigest (hmacSha1 (keyBytes s) (be64 c)) s))) := hc ▸ exec_hotp_ok h

/-- The block after the CMD write of w, with `rest` still to come once the engine has had its turn. -/
def started (w : Word) (rest : List Turn) (s : State) : State :=
  accept w { s with turns := rest, resp := some ⟨none, false⟩ }

/-- A run that begins with a command placed on an idle block. -/
theorem run_started (w : Word) (k : Nat) {s t : State} {rest : List Turn} (hb : busy s = false)
    (hexec : exec (decode w) (started w rest s) = .next t) :
    runSteps (k + 2) { s with turns := .host (writeReq 0x0C w) :: .engine :: rest } = runSteps k t :=
  run_command k hb rfl hexec

/-- Where the counter is in range, ENCODE then HOTP runs HOTP on the block that ENCODE left. -/
theorem run_encode_then_hotp {s u : State} {c : BitVec 64} {rest : List Turn} (hb : busy s = false)
    (hok : nextCounter s = .ok c) (hhotp : exec .hotp (started 4 rest
      (finish (putCounter c (started 1 (.host (writeReq 0x0C 4) :: .engine :: rest) s)))) = .next u) :
    runSteps 4 { s with
      turns := .host (writeReq 0x0C 1) :: .engine :: .host (writeReq 0x0C 4) :: .engine :: rest } = .next u :=
  (run_started 1 2 hb (exec_encode_ok (s := started 1 _ s) hok)).trans (run_started 4 0 (busy_idle rfl) hhotp)

/-- Settles O40: ENCODE and TOTP compute one counter or report one error, and HOTP reads the counter that ENCODE put. -/
theorem totpEqualsEncodeThenHotp : Obligations.TotpEqualsEncodeThenHotp := by
  intro s t rest hb hencode
  rcases nextCounter_cases s with ⟨c, hok, -⟩ | ⟨hbad, -⟩
  · have hrun := run_started 1 0 hb (exec_encode_ok (s := started 1 rest s) hok)
    obtain rfl := Host.Outcome.next.inj (hrun.symm.trans hencode)
    refine ⟨fun _ hmin hmax => ?_, fun herr => Bool.noConfusion herr⟩
    have hkey : keyLegal s = true := (keyLegal_iff s).mpr ⟨hmin, hmax⟩
    exact ⟨_, run_started 5 0 hb (exec_totp_ok (s := started 5 rest s) hok hkey), rfl,
      run_encode_then_hotp hb hok (exec_hotp_of_counter (counterOf_put c s) hkey)⟩
  · have hrun := run_started 1 0 hb (exec_encode_bad (s := started 1 rest s) hbad)
    obtain rfl := Host.Outcome.next.inj (hrun.symm.trans hencode)
    exact ⟨fun herr => Bool.noConfusion herr,
      fun _ => run_started 5 0 hb (exec_totp_bad (s := started 5 rest s) hbad)⟩

/-- Refutes O41: without a key, at T = 30, the pair leaves COUNTER = 1 with its INVALID_KEY, and TOTP the old
COUNTER 0. -/
theorem not_totpEqualsEncodeThenHotpWhateverTheKey : ¬ Obligations.TotpEqualsEncodeThenHotpWhateverTheKey := by
  intro h
  have hok : nextCounter { State.reset with timeLo := 30 } = .ok 1 := by decide
  obtain ⟨u, htotp, hpair⟩ := h { State.reset with timeLo := 30 } _ [] rfl
    (run_started 1 0 rfl (exec_encode_ok (s := started 1 [] { State.reset with timeLo := 30 }) hok)) rfl
  have hold := run_started 5 0 rfl (exec_totp_badkey (s := started 5 [] { State.reset with timeLo := 30 }) hok rfl)
  have hnew := run_encode_then_hotp (s := { State.reset with timeLo := 30 }) (rest := []) rfl hok (exec_hotp_bad rfl)
  have hzero : u.counterLo = 0 := congrArg State.counterLo (Host.Outcome.next.inj (htotp.symm.trans hold))
  have hone : u.counterLo = 1 := congrArg State.counterLo (Host.Outcome.next.inj (hpair.symm.trans hnew))
  exact absurd (hzero.symm.trans hone) (by decide)

end Sys2Proof.Machine

/-! ## The host's procedures against the block

Proofs of O56 and O57: first the code strings of a truncated value, then what each statement of a host program leaves
and reads, then one TOTP slot from a loaded block, of which both procedures are made. -/

namespace Sys2Proof.Machine

/-! ### The code strings of a truncated value -/

/-- More digits in front are those of what stands before the last n. -/
theorem decimalTail_add (m n v : Nat) : decimalTail (m + n) v = decimalTail m (v / 10 ^ n) ++ decimalTail n v := by
  induction n generalizing v with
  | zero => simp [decimalTail]
  | succ n ih =>
    rw [← Nat.add_assoc, decimalTail_succ, ih, decimalTail_succ, List.append_assoc, Nat.div_div_eq_div_mul,
      ← pow_succ']

/-- The digits of 0 are zeros. -/
theorem decimalTail_zero_right (m : Nat) : decimalTail m 0 = List.replicate m '0' := by
  simp [decimalTail, List.map_const', Nat.digitChar]

/-- The code string of a truncated value: its last six decimal digits, or as many of them as it has
(44_totp_and_control.md R205, R206). -/
def codeText : CodeForm → Nat → List Char
  | .padded, v => decimalTail 6 v
  | .legacy, v => decimalTail (min 6 (ndigits v)) v

/-- What the host expects of a counter is the code string of its truncated value. -/
theorem expectedCode_eq (form : CodeForm) (k : List Byte) (c : Nat) :
    expectedCode form k c = codeText form (truncValue (hmacSha1 (hostKey k) (be64 (BitVec.ofNat 64 c)))) := by
  generalize hv : truncValue (hmacSha1 (hostKey k) (be64 (BitVec.ofNat 64 c))) = v
  obtain ⟨-, hlt, -⟩ := ndigits_spec v
  cases form with
  | padded =>
    have hzeros : List.replicate 6 '0' ++ decimalTail (ndigits v) v = decimalTail (6 + ndigits v) v := by
      rw [decimalTail_add, Nat.div_eq_of_lt hlt, decimalTail_zero_right]
    simp only [expectedCode, hv, codeText]
    rw [toDigits_eq_decimalTail, hzeros, decimalTail_length,
      ← drop_decimalTail (k := 6) (n := 6 + ndigits v) (by omega), Nat.add_sub_cancel_left]
  | legacy =>
    simp only [expectedCode, hv, codeText]
    rw [toDigits_eq_decimalTail, decimalTail_length,
      show ndigits v - 6 = ndigits v - min 6 (ndigits v) by omega, drop_decimalTail (by omega)]

/-- The code string that the host forms of what a block holds. -/
def heldText : CodeForm → State → List Char
  | .padded, s => codeString s
  | .legacy, s => legacyString s

/-- Where CODE, CODE_BCD and LEGACY_LEN are those of a truncated value, the block holds its code string
(43_truncation.md R182 to R184). -/
theorem heldText_eq (form : CodeForm) {s : State} {v : Nat} (hcode : s.code.toNat = v % 1000000)
    (hbcd : ∀ i, i < 6 → s.codeBcd.toNat / 16 ^ i % 16 = s.code.toNat / 10 ^ i % 10)
    (hlegacy : s.legacyLen.toNat = legacyLength v) : heldText form s = codeText form v := by
  have hread : (readReg .codeBcd s).toNat = s.codeBcd.toNat := BitVec.toNat_setWidth_of_le (by decide)
  have hpadded : paddedText (readReg .codeBcd s) = decimalTail 6 v := by
    rw [← decimalTail_mod (Nat.le_refl 6), show 10 ^ 6 = 1000000 from rfl, ← hcode]
    exact paddedText_eq_decimalTail fun i hi => hread ▸ hbcd i hi
  cases form with
  | padded => exact hpadded
  | legacy =>
    rw [heldText, legacyString, legacyText, hpadded, legacyLen_of_codeInfo, hlegacy, legacyLength,
      drop_decimalTail (by omega), codeText]

/-- A block with the results of a truncation holds the code string of the truncated value. -/
theorem heldText_of_truncation (form : CodeForm) {d : List Byte} {s t : State} (h : SameResults (putTruncation d s) t) :
    heldText form t = codeText form (truncValue d) := by
  obtain ⟨hcode, hbcd, hlegacy⟩ := putTruncation_results d s
  rw [← h.code] at hcode hbcd
  rw [← h.codeBcd] at hbcd
  rw [← h.legacyLen] at hlegacy
  exact heldText_eq form hcode hbcd hlegacy

/-! ### What the host answers for a block after its TOTP -/

/-- The string of a block, or the error that its STATUS reports (70_reset_and_hazards.md R256). -/
def hostAnswer (form : CodeForm) (s : State) : Except CmdError (List Char) :=
  match statusError (statusWord s) with
  | some e => .error e
  | none => .ok (heldText form s)

/-- Without ERR the host forms the string. -/
theorem hostAnswer_of_no_error (form : CodeForm) {s : State} (h : s.err = false) :
    hostAnswer form s = .ok (heldText form s) := by
  rw [hostAnswer, statusError_none h]

/-- Bits [11:8] of a STATUS word are ERRCODE. -/
theorem statusWord_errcode (s : State) : (statusWord s).extractLsb' 8 4 = s.errcode := by
  rw [← BitVec.toNat_inj, BitVec.extractLsb'_toNat, statusWord_toNat, Nat.shiftRight_eq_div_pow]
  have hbusy := Bool.toNat_le (busy s)
  have hdone := Bool.toNat_le s.done
  have herr := Bool.toNat_le s.err
  have hwbusy := Bool.toNat_le s.wbusy
  omega

/-- After an error completion the host sees that error. -/
theorem hostAnswer_of_error (form : CodeForm) (e : CmdError) (s : State) :
    hostAnswer form (finish (reportError e s)) = .error e := by
  have hstatus : statusError (statusWord (finish (reportError e s))) = some e := by
    rw [statusError, statusWord_err, statusWord_errcode, finish_err, reportError_err, if_pos rfl, finish_errcode,
      reportError_errcode]
    cases e <;> rfl
  rw [hostAnswer, hstatus]

/-- The words that end the reads of a slot. -/
def codeWords : CodeForm → State → List Word
  | .padded, s => [readReg .codeBcd s]
  | .legacy, s => [readReg .codeInfo s, readReg .codeBcd s]

/-- They do not depend on the last response. -/
theorem codeWords_resp (form : CodeForm) (s : State) (r : Option BusResp) :
    codeWords form { s with resp := r } = codeWords form s := by
  cases form <;> rfl

/-- The host's answer depends on the STATUS word that ends its WAIT and the words of the code alone. -/
theorem codeAnswer_codeWords (form : CodeForm) (before : List Word) (s : State) :
    codeAnswer form (before ++ statusWord s :: codeWords form s) = some (hostAnswer form s) := by
  cases form <;> simp [codeAnswer, codeWords] <;> rfl

/-! ### Runs of host programs -/

/-- A run of k + n steps is one of k and then one of n. -/
theorem runReads_add (k n : Nat) (s : State) :
    runReads (k + n) s =
      ((runReads n (runReads k s).1).1, (runReads k s).2 ++ (runReads n (runReads k s).1).2) := by
  induction k generalizing s with
  | zero => simp [runReads]
  | succ k ih =>
    rw [Nat.add_right_comm]
    cases h : nextTurn s with
    | next t => rw [runReads_next _ h, runReads_next _ h, ih, List.append_assoc]
    | _ => cases n <;> simp [runReads, h]

/-- From s the program p, whatever is scheduled after it, leaves t and has read `data`. -/
def ProgramRuns (p : List Stmt) (s t : State) (data : List Word) : Prop :=
  ∀ rest, runReads (p.map Stmt.steps).sum { s with turns := programTurns p ++ rest } =
    ({ t with turns := rest }, data)

/-- Programs run one after the other. -/
theorem ProgramRuns.append {p q : List Stmt} {s t u : State} {d e : List Word} (hp : ProgramRuns p s t d)
    (hq : ProgramRuns q t u e) : ProgramRuns (p ++ q) s u (d ++ e) := by
  intro rest
  rw [List.map_append, List.sum_append, runReads_add, programTurns_append, List.append_assoc, hp, hq]

/-- A program of its own, run by the host. -/
theorem ProgramRuns.runHost {p : List Stmt} {s t : State} {d : List Word} (h : ProgramRuns p s t d) :
    runHost p s = ({ t with turns := [] }, d) := by
  rw [Machine.runHost, ← h [], List.append_nil]

/-- A run depends on the turns and the steps of its program alone. -/
theorem ProgramRuns.of_turns {p q : List Stmt} {s t : State} {d : List Word} (hp : ProgramRuns p s t d)
    (hturns : programTurns q = programTurns p) (hsteps : (q.map Stmt.steps).sum = (p.map Stmt.steps).sum) :
    ProgramRuns q s t d := by
  intro rest
  rw [hturns, hsteps, hp]

/-- A write of a register, on an idle block. -/
theorem wr_runs (r : Reg) (v : Word) {s : State} (hb : busy s = false) :
    ProgramRuns [.wr (offsetOf r) v] s { storeReg r v s with resp := some ⟨none, false⟩ } [] := by
  intro rest
  refine (runReads_write { s with turns := .host (writeReq (offsetOf r) v) :: rest } (offsetOf r) r v rest 0
    (regAt_offsetOf r) (.inr hb) rfl).trans ?_
  rw [runReads, storeReg_turns r v s]

/-- A read of a register. -/
theorem rd_runs (r : Reg) (s : State) :
    ProgramRuns [.rd (offsetOf r)] s { s with resp := some ⟨some (readReg r s), false⟩ } [readReg r s] := by
  intro rest
  refine (runReads_read { s with turns := .host (readReq (offsetOf r)) :: rest } (offsetOf r) r rest 0
    (regAt_offsetOf r) rfl).trans ?_
  rw [runReads, readReg_model_fields r s _ s.resp]

/-- The reads of the code. -/
theorem codeReads_runs (form : CodeForm) (s : State) : ProgramRuns (codeReads form) s
    { s with resp := some ⟨some (readReg .codeBcd s), false⟩ } (codeWords form s) := by
  cases form with
  | padded => exact rd_runs .codeBcd s
  | legacy => exact (rd_runs .codeInfo s).append (rd_runs .codeBcd _)

/-- The two writes of TIME. -/
theorem time_runs (v : BitVec 64) {s : State} (hb : busy s = false) :
    ProgramRuns [.ld64 (offsetOf .timeHi) (offsetOf .timeLo) v] s { s with
      timeHi := v.extractLsb' 32 32, timeLo := v.extractLsb' 0 32, resp := some ⟨none, false⟩ } [] := by
  have hhi := wr_runs .timeHi (v.extractLsb' 32 32) hb
  have hlo := wr_runs .timeLo (v.extractLsb' 0 32)
    (s := { s with timeHi := v.extractLsb' 32 32, resp := some ⟨none, false⟩ }) hb
  exact (hhi.append hlo).of_turns rfl rfl

/-- A turn that writes a word. -/
def Turn.IsWrite (turn : Turn) : Prop := ∃ off v, turn = wrTurn off v

/-- A run of writes reads nothing. -/
theorem runReads_of_writes {ts rest : List Turn} {s t : State} (hw : ∀ turn ∈ ts, turn.IsWrite)
    (ht : s.turns = ts ++ rest) (hrun : runSteps ts.length s = .next t) : runReads ts.length s = (t, []) := by
  induction ts generalizing s with
  | nil => rw [← Host.Outcome.next.inj hrun]; rfl
  | cons turn ts ih =>
    obtain ⟨⟨off, v, rfl⟩, hws⟩ := List.forall_mem_cons.mp hw
    rw [List.length_cons] at hrun ⊢
    rw [runReads_next _ (step_host ht), ih hws (serve_turns _ _) ((run_host _ ht).symm.trans hrun)]
    simp [readBack, ht, wrTurn, writeReq]

/-- The turns of key words are writes. -/
theorem keyWrites_writes (j : Nat) (ws : List Word) : ∀ turn ∈ keyWrites j ws, turn.IsWrite := by
  induction ws generalizing j with
  | nil => simp [keyWrites]
  | cons w ws ih => exact List.forall_mem_cons.mpr ⟨⟨_, _, rfl⟩, ih _⟩

/-- The block after LDKEY (30_encoding.md R97): the key's words stand in the first KEY registers, and KEYLEN is its
length. -/
def withKey (k : List Byte) (s : State) : State :=
  { s with
    key := storeKeyWords 0 (keyWords k) s.key
    keyLen := (BitVec.ofNat 32 k.length).extractLsb' 0 7
    resp := some ⟨none, false⟩ }

/-- A key of at most 64 bytes takes at most the 16 KEY registers. -/
theorem keyWords_length_le {k : List Byte} (hk : k.length ≤ 64) : 0 + (keyWords k).length ≤ 16 := by
  rw [keyWords_length]
  omega

/-- The block after LDKEY holds the key (42_hmac_sha1.md R148). -/
theorem keyBytes_withKey {k : List Byte} (hk : k.length ≤ 64) (s : State) : keyBytes (withKey k s) = k := by
  have hkey : (withKey k s).key.toList = keyWords k ++ s.key.toList.drop (keyWords k).length := by
    rw [withKey, toList_storeKeyWords s.key (keyWords_length_le hk), List.take_zero, List.nil_append, Nat.zero_add]
  exact keyBytes_of_keyWords (keyLen_of_length hk) hkey

/-- The turns of LDKEY on an idle block. -/
theorem run_ldkey {k : List Byte} {s : State} (rest : List Turn) (hb : busy s = false) (hk : k.length ≤ 64) :
    runSteps (Stmt.turns (.ldkey k)).length { s with turns := Stmt.turns (.ldkey k) ++ rest } =
      .next { withKey k s with turns := rest } := by
  have hsteps : (Stmt.turns (.ldkey k)).length = (keyWords k).length + 1 := by
    rw [Stmt.turns, List.length_append, keyWrites_length, List.length_singleton]
  obtain ⟨r, hrun⟩ := run_keyWrites (s := { s with turns := Stmt.turns (.ldkey k) ++ rest }) 1 hb
    (keyWords_length_le hk) (List.append_assoc _ _ _)
  rw [hsteps, hrun, run_one]
  exact step_write _ _ .keyLen _ rest (regAt_offsetOf _) (.inr hb) rfl

/-- LDKEY, on an idle block, for a key of at most 64 bytes. -/
theorem ldkey_runs {k : List Byte} {s : State} (hb : busy s = false) (hk : k.length ≤ 64) :
    ProgramRuns [.ldkey k] s (withKey k s) [] := by
  intro rest
  have hwrites : ∀ turn ∈ Stmt.turns (.ldkey k), turn.IsWrite :=
    List.forall_mem_append.mpr ⟨keyWrites_writes _ _, List.forall_mem_singleton.mpr ⟨_, _, rfl⟩⟩
  have hturns : programTurns [.ldkey k] = Stmt.turns (.ldkey k) := List.append_nil _
  rw [hturns]
  exact runReads_of_writes hwrites rfl (run_ldkey rest hb hk)

/-- A completion does not depend on the schedule and the last response, and keeps them. -/
theorem exec_model_fields {i : Instr} {s u : State} (ts : List Turn) (r : Option BusResp) (h : exec i s = .next u) :
    exec i { s with turns := ts, resp := r } = .next { u with turns := ts, resp := r } := by
  obtain ⟨u', hu', hexec⟩ := exec_withRestOf i s { s with turns := ts, resp := r }
  obtain rfl := Host.Outcome.next.inj (h.symm.trans hu')
  obtain ⟨_, hu, heng, -, hdone, hie, hwbusy, hlastop, -, -, hfree⟩ := everyCompletionEndsItsCommand i s
  obtain rfl := Host.Outcome.next.inj (h.symm.trans hu)
  refine hexec.trans (congrArg Host.Outcome.next ?_)
  simp only [finish, State.withRestOf, heng, hdone, hie, hwbusy, hlastop, hfree]

/-- A command, on an idle block. -/
theorem command_runs (i : Instr) {s : State} (hb : busy s = false) :
    ProgramRuns [.command i] s (started (encode i) s.turns s) [] :=
  (wr_runs .cmd (encode i) hb).of_turns rfl rfl

/-- The engine holds the command that was written. -/
theorem started_eng {i : Instr} (hwf : i.WellFormed) (rest : List Turn) (s : State) :
    (started (encode i) rest s).eng = .busy (opField i) (isLegalCommand i) := by
  obtain ⟨hop, hlegal⟩ := decode_fields (encode i)
  rw [decode_encode hwf] at hop hlegal
  rw [hop, hlegal]
  rfl

/-- The turn of WAIT (30_encoding.md R97). -/
def waitTurn : Turn := .poll (offsetOf .status) 3 2

/-- The block after a read of STATUS, with `rest` still to come. -/
def statusRead (rest : List Turn) (s : State) : State :=
  { s with turns := rest, resp := some ⟨some (statusWord s), false⟩ }

/-- WAIT on a busy block reads STATUS, and the engine is next. -/
theorem nextTurn_wait_busy {s : State} (rest : List Turn) (hb : busy s = true) :
    nextTurn { s with turns := waitTurn :: rest } = .next (statusRead (.engine :: waitTurn :: rest) s) :=
  congrArg Host.Outcome.next (pollOnce_status_busy (s := { s with turns := rest }) hb)

/-- WAIT after a completion reads STATUS and ends. -/
theorem nextTurn_wait_done {s : State} (rest : List Turn) (r : Option BusResp) (hb : busy s = false)
    (hd : s.done = true) : nextTurn { s with turns := waitTurn :: rest, resp := r } = .next (statusRead rest s) :=
  congrArg Host.Outcome.next (pollOnce_status_done (s := { s with turns := rest, resp := r }) hb hd)

/-- WAIT on a busy block: it reads STATUS, the command completes, and it reads STATUS again. -/
theorem wait_runs {i : Instr} {s u : State} (heng : s.eng = .busy (opField i) (isLegalCommand i))
    (hexec : exec i s = .next u) :
    ProgramRuns [.wait] s { u with resp := some ⟨some (statusWord u), false⟩ } [statusWord s, statusWord u] := by
  intro rest
  have hengine : nextTurn (statusRead (.engine :: waitTurn :: rest) s) =
      .next { u with turns := waitTurn :: rest, resp := some ⟨some (statusWord s), false⟩ } :=
    (engineTurn_command (s := statusRead (waitTurn :: rest) s) heng).trans (exec_model_fields _ _ hexec)
  obtain ⟨_, hu, -, hidle, hdone, -⟩ := everyCompletionEndsItsCommand i s
  obtain rfl := Host.Outcome.next.inj (hexec.symm.trans hu)
  refine (runReads_next 2 (nextTurn_wait_busy rest (busy_busy heng))).trans ?_
  rw [runReads_next 1 hengine, runReads_next 0 (nextTurn_wait_done rest _ hidle hdone)]
  rfl

/-! ### The loaded block -/

/-- The block holds the key and the time of the host, with STEP = 0 (44_totp_and_control.md R207). -/
structure Loaded (k : List Byte) (now : BitVec 64) (s : State) : Prop where
  key : keyBytes s = hostKey k
  keyLen : s.keyLen.toNat = (hostKey k).length
  time : timeOf s = now.toNat
  step : effectiveStep s = 30

/-- What TOTP writes leaves the block loaded. -/
theorem Loaded.totpWrites {k : List Byte} {now : BitVec 64} {s : State} (h : Loaded k now s) (c : BitVec 64)
    (d : List Byte) : Loaded k now (finish (putCounter c (putTruncation d (putDigest d s)))) where
  key := Eq.trans (by simp [keyBytes]) h.key
  keyLen := Eq.trans (by simp) h.keyLen
  time := Eq.trans (by simp [timeOf]) h.time
  step := h.step

/-- A key fits the buffer after the host's reduction (42_hmac_sha1.md R152). -/
theorem hostKey_length_le (k : List Byte) : (hostKey k).length ≤ 64 := by
  rw [hostKey]
  split
  · assumption
  · rw [sha1_length]
    decide

/-- Only the empty secret has an empty key. -/
theorem hostKey_length_eq_zero_iff (k : List Byte) : (hostKey k).length = 0 ↔ k = [] := by
  rw [hostKey]
  split
  · exact List.length_eq_zero_iff
  · rename_i hlong
    refine iff_of_false (by rw [sha1_length]; decide) ?_
    rintro rfl
    exact hlong (by decide)

/-- A loaded block has a legal key length exactly where there is a secret. -/
theorem Loaded.keyLegal_iff {k : List Byte} {now : BitVec 64} {s : State} (h : Loaded k now s) :
    keyLegal s = true ↔ k ≠ [] := by
  have hle := hostKey_length_le k
  rw [Machine.keyLegal_iff, h.keyLen, Ne, ← hostKey_length_eq_zero_iff]
  omega

/-- Key, TIME and STEP are loaded on an idle block. -/
theorem loadProgram_runs (k : List Byte) (now : BitVec 64) {s : State} (hb : busy s = false) :
    ∃ t, ProgramRuns (loadProgram k now) s t [] ∧ busy t = false ∧ Loaded k now t := by
  have hle := hostKey_length_le k
  have htime := time_runs now (s := withKey (hostKey k) s) hb
  have hstep := wr_runs .step 0 (s := { withKey (hostKey k) s with
    timeHi := now.extractLsb' 32 32, timeLo := now.extractLsb' 0 32, resp := some ⟨none, false⟩ }) hb
  exact ⟨_, ((ldkey_runs hb hle).append htime).append hstep, hb, keyBytes_withKey hle s, keyLen_of_length hle,
    putCounter_toNat now s, rfl⟩

/-! ### One slot -/

/-- What the host gets for a secret, a time and an OFFSET: the code of that counter, or an error, the counter's first
(44_totp_and_control.md R200). -/
def slotAnswer (form : CodeForm) (k : List Byte) (now : BitVec 64) (ofs : Word) : Except CmdError (List Char) :=
  match encodeCounter now.toNat 30 ofs.toInt with
  | .error e => .error e
  | .ok c => if k = [] then .error .invalidKey else .ok (expectedCode form k c.toNat)

/-- The counter error comes first. -/
theorem slotAnswer_of_error (form : CodeForm) (k : List Byte) {now : BitVec 64} {ofs : Word} {e : CmdError}
    (h : encodeCounter now.toNat 30 ofs.toInt = .error e) : slotAnswer form k now ofs = .error e := by
  rw [slotAnswer, h]

/-- With a counter the answer turns on the secret alone. -/
theorem slotAnswer_of_ok (form : CodeForm) (k : List Byte) {now c : BitVec 64} {ofs : Word}
    (h : encodeCounter now.toNat 30 ofs.toInt = .ok c) :
    slotAnswer form k now ofs = if k = [] then .error .invalidKey else .ok (expectedCode form k c.toNat) := by
  rw [slotAnswer, h]

/-- TOTP on a loaded block leaves it loaded, with the answer of the slot. -/
theorem exec_totp_of_loaded (form : CodeForm) {k : List Byte} {now : BitVec 64} {s : State} (h : Loaded k now s)
    (herr : s.err = false) :
    ∃ u, exec .totp s = .next u ∧ hostAnswer form u = slotAnswer form k now s.offsetReg ∧ Loaded k now u := by
  have hcounter : nextCounter s = encodeCounter now.toNat 30 s.offsetReg.toInt := by
    rw [nextCounter, h.time, h.step, offsetOfCounter]
  cases hnext : nextCounter s with
  | error e =>
    rw [slotAnswer_of_error form k (hcounter.symm.trans hnext)]
    exact ⟨_, exec_totp_bad hnext, hostAnswer_of_error form e s, { h with }⟩
  | ok c =>
    rw [slotAnswer_of_ok form k (hcounter.symm.trans hnext)]
    by_cases hk : k = []
    · have hillegal : keyLegal s = false := Bool.eq_false_iff.mpr (h.keyLegal_iff.not.mpr (not_not_intro hk))
      rw [if_pos hk]
      exact ⟨_, exec_totp_badkey hnext hillegal, hostAnswer_of_error form .invalidKey s, { h with }⟩
    · rw [if_neg hk]
      refine ⟨_, exec_totp_ok hnext (h.keyLegal_iff.mpr hk), ?_, h.totpWrites c _⟩
      refine (hostAnswer_of_no_error form ?_).trans (congrArg Except.ok ?_)
      · exact herr
      · rw [expectedCode_eq, BitVec.ofNat_toNat, BitVec.setWidth_eq, ← h.key]
        exact heldText_of_truncation form (s := s) ⟨rfl, rfl, rfl, rfl, rfl, rfl⟩

/-- A slot on a loaded idle block gives its answer and leaves the block loaded and idle. -/
theorem slotProgram_runs (form : CodeForm) {k : List Byte} {now : BitVec 64} (ofs : Word) {s : State}
    (h : Loaded k now s) (hb : busy s = false) :
    ∃ t data, ProgramRuns (slotProgram form ofs) s t data ∧
      codeAnswer form data = some (slotAnswer form k now ofs) ∧ busy t = false ∧ Loaded k now t := by
  have hofs := wr_runs .offset ofs hb
  have hcmd := command_runs .totp (s := { storeReg .offset ofs s with resp := some ⟨none, false⟩ }) hb
  obtain ⟨u, hexec, hanswer, hloaded⟩ := exec_totp_of_loaded form
    (s := started (encode .totp) s.turns { storeReg .offset ofs s with resp := some ⟨none, false⟩ }) { h with } rfl
  have hwait := wait_runs (started_eng rfl _ _) hexec
  have hread := codeReads_runs form { u with resp := some ⟨some (statusWord u), false⟩ }
  rw [codeWords_resp] at hread
  obtain ⟨_, hu, -, hidle, -⟩ := everyCompletionEndsItsCommand .totp _
  obtain rfl := Host.Outcome.next.inj (hexec.symm.trans hu)
  exact ⟨_, _, ((hofs.append hcmd).append hwait).append hread,
    (codeAnswer_codeWords form [_] u).trans (congrArg some hanswer), hidle, { hloaded with }⟩

/-! ### The two procedures -/

/-- Where the counter of a slot is a number of 64 bits, the slot exists. -/
theorem slotAnswer_of_counter (form : CodeForm) (k : List Byte) {now : BitVec 64} {ofs : Word} {c : Nat}
    (hc : ((now.toNat / 30 : Nat) : Int) + ofs.toInt = c) (hlt : c < 2 ^ 64) :
    slotAnswer form k now ofs = if k = [] then .error .invalidKey else .ok (expectedCode form k c) := by
  obtain ⟨v, hv, hvc⟩ := encodeCounter_ok (t := now.toNat) (S := 30) (ofs := ofs.toInt) (by omega) (by omega)
  have hvc : v.toNat = c := by omega
  rw [slotAnswer_of_ok form k hv, hvc]

/-- The slot before the first step does not exist (44_totp_and_control.md R208). -/
theorem slotAnswer_absent (form : CodeForm) (k : List Byte) {now : BitVec 64} {ofs : Word}
    (h : ((now.toNat / 30 : Nat) : Int) + ofs.toInt < 0) : slotAnswer form k now ofs = .error .invalidCounter :=
  slotAnswer_of_error form k (encodeCounter_bad (by omega))

/-- `totp` gives the answer of the slot at OFFSET 0. -/
theorem hostTotp_eq_slotAnswer (form : CodeForm) (k : List Byte) (now : BitVec 64) {s : State} (hb : busy s = false) :
    hostTotp form k now s = some (slotAnswer form k now 0) := by
  obtain ⟨t, hload, hidle, hloaded⟩ := loadProgram_runs k now hb
  obtain ⟨u, data, hslot, hanswer, -⟩ := slotProgram_runs form 0 hloaded hidle
  rw [hostTotp, totpProgram, (hload.append hslot).runHost]
  exact hanswer

/-- The slots of a loaded idle block, one after the other, give their answers. -/
theorem runSlots_of_loaded (form : CodeForm) {k : List Byte} {now : BitVec 64} (offsets : List Word) {s : State}
    (h : Loaded k now s) (hb : busy s = false) :
    runSlots form offsets s = some (offsets.map (slotAnswer form k now)) := by
  induction offsets generalizing s with
  | nil => rfl
  | cons ofs offsets ih =>
    obtain ⟨t, data, hslot, hanswer, hidle, hloaded⟩ := slotProgram_runs form ofs h hb
    have hrest := ih (s := { t with turns := [] }) { hloaded with } hidle
    rw [runSlots, hslot.runHost, hanswer, hrest, List.map_cons]

/-- `verify` judges the answers of the three slots. -/
theorem hostVerify_eq_verifyAnswer (form : CodeForm) (k : List Byte) (candidate : List Char) (now : BitVec 64)
    {s : State} (hb : busy s = false) : hostVerify form k candidate now s =
      some (verifyAnswer candidate (verifyOffsets.map (slotAnswer form k now))) := by
  obtain ⟨t, hload, hidle, hloaded⟩ := loadProgram_runs k now hb
  have hslots := runSlots_of_loaded form verifyOffsets (s := { t with turns := [] }) { hloaded with } hidle
  rw [hostVerify, hload.runHost, hslots, Option.map_some]

/-- Settles O56: the counter of OFFSET 0 is the number of steps up to the time. -/
theorem hostTotpReturnsTheCode : Obligations.HostTotpReturnsTheCode := by
  intro form k now s hb
  have hanswer := slotAnswer_of_counter form k (now := now) (ofs := 0) (c := now.toNat / 30) (by simp) (by omega)
  rw [hostTotp_eq_slotAnswer form k now hb, hanswer]
  refine ⟨fun hk => ?_, fun hk => ?_⟩
  · rw [if_neg (List.ne_nil_of_length_pos hk)]
  · rw [if_pos hk]

/-- Settles O57: the slots at OFFSET 0 and 1 exist, the one at -1 from the second step on. -/
theorem hostVerifyAcceptsTheWindow : Obligations.HostVerifyAcceptsTheWindow := by
  intro form k candidate now s hb c
  have hmax : c ≤ 2 ^ 64 / 30 := Nat.div_le_div_right now.isLt.le
  have hmid := slotAnswer_of_counter form k (now := now) (ofs := 0) (c := c) (Int.add_zero _) (by omega)
  have hnext := slotAnswer_of_counter form k (now := now) (ofs := 1) (c := c + 1) rfl (by omega)
  have habsent (hc : c = 0) : slotAnswer form k now 0xFFFFFFFF = .error .invalidCounter :=
    slotAnswer_absent form k (show (c : Int) + -1 < 0 by omega)
  have hprev (hc : 0 < c) := slotAnswer_of_counter form k (now := now) (ofs := 0xFFFFFFFF) (c := c - 1)
    (show (c : Int) + -1 = (c - 1 : Nat) by omega) (by omega)
  have hslots : verifyOffsets.map (slotAnswer form k now) =
      [slotAnswer form k now 0xFFFFFFFF, slotAnswer form k now 0, slotAnswer form k now 1] := rfl
  rw [hostVerify_eq_verifyAnswer form k candidate now hb, hslots]
  refine ⟨fun hk => ?_, fun hk => ?_⟩
  · have hne : k ≠ [] := List.ne_nil_of_length_pos hk
    rw [hmid, hnext, if_neg hne, if_neg hne]
    rcases Nat.eq_zero_or_pos c with hc | hc
    · rw [habsent hc, verifyAnswer_absent]
      exact ⟨_, congrArg some (verifyAnswer_ok candidate [_, _]), by simp [hc]⟩
    · rw [hprev hc, if_neg hne]
      exact ⟨_, congrArg some (verifyAnswer_ok candidate [_, _, _]), by simp [Nat.one_le_iff_ne_zero.mpr hc.ne']⟩
  · rcases Nat.eq_zero_or_pos c with hc | hc
    · rw [habsent hc, verifyAnswer_absent, hmid, if_pos hk, verifyAnswer_invalidKey]
    · rw [hprev hc, if_pos hk, verifyAnswer_invalidKey]

end Sys2Proof.Machine

/-! ## Exceptions: the interrupt and the idle block

Proofs of O24 and O48: first what a store and a transaction do to the interrupt output, then the two statements. -/

namespace Sys2Proof.Machine

/-! ### The interrupt output -/

/-- CTRL, CMD and STATUS are the only registers a store to which reaches IE or DONE (60_exceptions.md R230, R231). -/
theorem irq_storeReg {r : Reg} (v : Word) (s : State) (h : offsetOf r ∉ [0x08#8, 0x0C#8, 0x10#8]) :
    irq (storeReg r v s) = irq s := by
  cases r with
  | ctrl => exact absurd (by decide) h
  | cmd => exact absurd (by decide) h
  | status => exact absurd (by decide) h
  | _ => rfl

/-- A write that the lock drops sets WBUSY, which is no part of the interrupt. -/
theorem irq_writeReg {r : Reg} (v : Word) (s : State) (h : offsetOf r ∉ [0x08#8, 0x0C#8, 0x10#8]) :
    irq (writeReg r v s) = irq s := by
  unfold writeReg
  split
  · rfl
  · exact irq_storeReg v s h

/-- A transaction at any other offset than those of CTRL, CMD and STATUS leaves the interrupt output. -/
theorem irq_serve {q : BusReq} (s : State) (hoff : q.off ∉ [0x08#8, 0x0C#8, 0x10#8]) : irq (serve q s) = irq s := by
  rcases serve_cases q s with h | ⟨r, _, _, h⟩ | ⟨r, hr, _, _, h⟩
  · rw [h, ← irq_block, busError_block, irq_block]
  · rw [h]
    rfl
  · rw [h]
    exact irq_writeReg q.wdata s (offsetOf_of_regAt q.off r hr ▸ hoff)

/-- Settles O24: a completion sets DONE and keeps IE, a CTRL write sets IE, and a STATUS write of bit 1 or an acceptance
clears DONE. -/
theorem interruptFollowsDoneAndEnable : Obligations.InterruptFollowsDoneAndEnable := by
  refine ⟨fun i s t hexec => ?_, fun s t v rest ht hstep => ?_, fun s t v rest hv ht hstep => ?_,
    fun s t w rest hb ht hstep => ?_, fun s t q rest hoff ht hstep => ?_⟩
  · obtain ⟨u, hu, -, -, hdone, hie, -⟩ := everyCompletionEndsItsCommand i s
    obtain rfl := Host.Outcome.next.inj (hu.symm.trans hexec)
    rw [irq, hie, hdone, Bool.and_true]
  · have hwrite := step_write s 0x08 .ctrl v rest (regAt_offsetOf .ctrl) (.inl rfl) ht
    obtain rfl := Host.Outcome.next.inj (hwrite.symm.trans hstep)
    rfl
  · have hwrite := step_write s 0x10 .status v rest (regAt_offsetOf .status) (.inl rfl) ht
    obtain rfl := Host.Outcome.next.inj (hwrite.symm.trans hstep)
    have hbit : v.getLsbD 1 = true := (BitVec.getLsbD_eq_getElem (by decide)).trans hv
    simp [irq, storeReg, clearStatus, hbit]
  · have haccept := step_write s 0x0C .cmd w rest (regAt_offsetOf .cmd) (.inr hb) ht
    obtain rfl := Host.Outcome.next.inj (haccept.symm.trans hstep)
    exact Bool.and_false s.ie
  · obtain rfl := Host.Outcome.next.inj ((step_host ht).symm.trans hstep)
    exact irq_serve { s with turns := rest } hoff

/-! ### The idle block -/

/-- Settles O48: with nothing scheduled or at its turn the engine moves, and idle it changes no state. -/
theorem idleBlockChangesNothingOnItsOwn : Obligations.IdleBlockChangesNothingOnItsOwn := fun s hidle =>
  ⟨fun ht => (step_nil ht).trans (engineTurn_idle hidle),
    fun rest ht => (step_cons ht).trans (engineTurn_idle (s := { s with turns := rest }) hidle)⟩

end Sys2Proof.Machine

/-! ## The whole machine: no step stops it

Proof of O46: first the engine's turn, the only one that runs a command, then every turn and every step. -/

namespace Sys2Proof.Machine

/-- An idle engine changes nothing, and a busy one completes its command (40_command_model.md R116). -/
theorem engineTurn_next (s : State) : ∃ t, engineTurn s = .next t := by
  cases heng : s.eng with
  | idle => exact ⟨s, engineTurn_idle heng⟩
  | busy op ok =>
    obtain ⟨t, hexec, -⟩ := exec_completes (commandOf op ok) s
    exact ⟨t, (engineTurn_busy heng).trans hexec⟩

/-- A transaction is answered even when it is in error (60_exceptions.md R227), and reset has its state to go to. -/
theorem takeTurn_next (turn : Turn) (s : State) : ∃ t, takeTurn turn s = .next t := by
  cases turn with
  | host q => exact ⟨serve q s, rfl⟩
  | bus addr write wdata wstrb => exact ⟨serveAt addr write wdata wstrb s, rfl⟩
  | poll off mask val => exact ⟨pollOnce off mask val s, rfl⟩
  | engine => exact engineTurn_next s
  | reset inFlight => exact ⟨resetBlock inFlight s, rfl⟩

/-- Settles O46, by cases on who moves next. -/
theorem everyStepAnswersANextState : Obligations.EveryStepAnswersANextState := by
  intro s
  cases hturns : s.turns with
  | nil =>
    rw [step_nil hturns]
    exact engineTurn_next s
  | cons turn rest =>
    rw [step_cons hturns]
    exact takeTurn_next turn { s with turns := rest }

end Sys2Proof.Machine
